-- ==== Sys2Proof/Word.lean ====
section
/-! DEFINITION. The word types of HLL-CORE: widths as 00_scope.md R9 gives them. -/

namespace Sys2Proof

/-- The operand and result width `W` = 64 (00_scope.md R5). All values are unsigned (R12). -/
abbrev Word := BitVec 64

/-- One command word: `OP` in bits 67..64, `DATA` in bits 63..0 (30_encoding.md R60). -/
abbrev CommandWord := BitVec 68

/-- One entry of the register file, `REG_W` = 6 bits (00_scope.md R7). -/
abbrev Reg := BitVec 6

end Sys2Proof
end

