-- ==== Sys2Proof/Config.lean ====
section
/-! DEFINITION. The parameters of HLL-CORE (00_scope.md R5-R9) and the one parameter the spec leaves OPEN,
the host's float arithmetic (92_eei_decisions.md D22), which is an argument and has no value here. The free values of the
real-number reading of that arithmetic stand here too. -/

namespace Sys2Proof

/-- `BMIN`, the least legal precision (00_scope.md R6). -/
def Config.bMin : Nat := 4

/-- `BMAX`, the largest legal precision (00_scope.md R6). -/
def Config.bMax : Nat := 16

/-- `MMAX` = 2^BMAX, the number of physical entries of the register file (00_scope.md R8). -/
def Config.mMax : Nat := 65536

/-- `HostFloat`, the host's floating-point arithmetic (92_eei_decisions.md D22, 93_implementation_defined.md U8):
the format `F`, the rounding of the operations, the evaluation order of a sum, and the accuracy of `ln` and `ln1p`
are all left OPEN, so every host-side function takes one of these as an argument. -/
structure HostFloat (F : Type) where
  /-- The float for a natural number. -/
  ofNat : Nat → F
  /-- The float nearest to the decimal `digits / 10^places`. -/
  decimal : (digits places : Nat) → F
  add : F → F → F
  mul : F → F → F
  div : F → F → F
  neg : F → F
  /-- The sum of a list, in whatever order the host adds. -/
  sum : List F → F
  ln : F → F
  ln1p : F → F
  le : F → F → Bool
  lt : F → F → Bool

/-- The free value that stands for `ln` of a real at or below 0, which no formula of 48_host_side.md reaches
(notes/assumptions/12.md). It has no body, so nothing can be proved of it. -/
noncomputable opaque Config.freeLn : ℝ → ℝ

/-- The free value that stands for `ln1p` of a real at or below -1: the spec leaves the large-range result open there
(48_host_side.md R126, 93_implementation_defined.md U9; notes/assumptions/12.md). It has no body, so nothing can be proved
of it. -/
noncomputable opaque Config.freeLn1p : ℝ → ℝ

end Sys2Proof
end

