-- ==== Sys2Proof/Syntax.lean ====
section
/-! DEFINITION. The commands of HLL-CORE: one constructor of `Instr` per row of spec/opcode_table.json
(30_encoding.md R64), each with its 64-bit DATA. -/

namespace Sys2Proof

/-- A command as its two fields (30_encoding.md R60): any `OP`, reserved ones included. -/
structure Command where
  op : BitVec 4
  data : Word
  deriving DecidableEq, Repr

/-- The eleven commands (30_encoding.md R64). Every constructor keeps all 64 bits of DATA, those that ignore it too
(R67), so that no bit of a command word is lost in decoding. -/
inductive Instr where
  /-- 40_config.md R80; DATA ignored. -/
  | nop (data : Word)
  /-- 40_config.md R81; DATA is the precision. -/
  | init (b : Word)
  /-- 41_update.md R92; DATA is the value. -/
  | update (value : Word)
  /-- 42_readout.md R100; DATA is the index. -/
  | readreg (j : Word)
  /-- 42_readout.md R101; DATA ignored. -/
  | numzeros (data : Word)
  /-- 42_readout.md R102; DATA is the register value counted. -/
  | histbin (k : Word)
  /-- 40_config.md R82; DATA ignored. -/
  | getb (data : Word)
  /-- 43_bitcount.md R110. -/
  | clz64 (x : Word)
  /-- 43_bitcount.md R111. -/
  | popcnt64 (x : Word)
  /-- 41_update.md R90. -/
  | idx (value : Word)
  /-- 41_update.md R91. -/
  | rank (value : Word)
  deriving DecidableEq, Repr

end Sys2Proof
end

