-- ==== Sys2Proof/WellFormed.lean ====
section
/-! DEFINITION. Which commands are well formed. The one check is on `OP` (30_encoding.md R64, R65): DATA is never
checked in an encoding (R63, R67; INIT and READREG check their operand when they run, 60_exceptions.md R141), so
every term of `Instr` is well formed. -/

namespace Sys2Proof

/-- `OP` names one of the eleven commands, 0x0..0xA; 0xB..0xF are reserved (30_encoding.md R64, R65). -/
abbrev Command.WellFormed (c : Command) : Prop := c.op.toNat ≤ 10

end Sys2Proof
end

