-- ==== Sys2Proof/Decode.lean ====
section
/-! DEFINITION. Decoding and encoding of command words (30_encoding.md R60, R64, R65, R68). Decoding is total: each
68-bit word is one of the eleven commands or is rejected by name as a reserved opcode. -/

namespace Sys2Proof

/-- Why a command word is no command. -/
inductive DecodeError where
  /-- `OP` is 0xB..0xF (30_encoding.md R65); the machine answers ERR_ILLEGAL. -/
  | reservedOpcode (op : BitVec 4)
  deriving DecidableEq, Repr

/-- The two fields of a command word: `OP` = CMD[67:64], `DATA` = CMD[63:0] (30_encoding.md R60). -/
def fieldsOf (w : CommandWord) : Command :=
  { op := w.extractLsb' 64 4, data := w.extractLsb' 0 64 }

/-- The opcode map (30_encoding.md R64): OP alone selects the command. -/
def decodeFields (c : Command) : Except DecodeError Instr :=
  match c.op.toNat with
  | 0x0 => .ok (.nop c.data)
  | 0x1 => .ok (.init c.data)
  | 0x2 => .ok (.update c.data)
  | 0x3 => .ok (.readreg c.data)
  | 0x4 => .ok (.numzeros c.data)
  | 0x5 => .ok (.histbin c.data)
  | 0x6 => .ok (.getb c.data)
  | 0x7 => .ok (.clz64 c.data)
  | 0x8 => .ok (.popcnt64 c.data)
  | 0x9 => .ok (.idx c.data)
  | 0xA => .ok (.rank c.data)
  | _ => .error (.reservedOpcode c.op)

/-- `decode(CMD) = table[CMD[67:64]]` (30_encoding.md R68). -/
def decode (w : CommandWord) : Except DecodeError Instr :=
  decodeFields (fieldsOf w)

/-- The opcode of a command (30_encoding.md R64). -/
def opcodeOf : Instr → BitVec 4
  | .nop _ => 0x0#4
  | .init _ => 0x1#4
  | .update _ => 0x2#4
  | .readreg _ => 0x3#4
  | .numzeros _ => 0x4#4
  | .histbin _ => 0x5#4
  | .getb _ => 0x6#4
  | .clz64 _ => 0x7#4
  | .popcnt64 _ => 0x8#4
  | .idx _ => 0x9#4
  | .rank _ => 0xA#4

/-- The DATA field of a command (30_encoding.md R63). -/
def operandOf : Instr → Word
  | .nop d => d
  | .init b => b
  | .update v => v
  | .readreg j => j
  | .numzeros d => d
  | .histbin k => k
  | .getb d => d
  | .clz64 x => x
  | .popcnt64 x => x
  | .idx v => v
  | .rank v => v

/-- The 68-bit word of two fields, `OP * 2^64 + DATA` (30_encoding.md R60, R61). -/
def wordOf (c : Command) : CommandWord := c.op ++ c.data

/-- The command word of a command (30_encoding.md R60, R64). -/
def encode (i : Instr) : CommandWord := wordOf { op := opcodeOf i, data := operandOf i }

/-- The command word whose bits are the low `nbits` bits of `w`, numbered as spec/opcode_table.json numbers them; the
port has 68 lines, so bits above 67 (padding to whole bytes) reach nothing (notes/assumptions/8.md). -/
def tableWord (nbits w : Nat) : CommandWord := BitVec.ofNat 68 (w % 2 ^ nbits)

/-- What the decoder reads from an instruction whose bits are `w`. -/
def decodeTableWord (nbits w : Nat) : Option Instr :=
  match decode (tableWord nbits w) with
  | .ok i => some i
  | .error _ => none

end Sys2Proof
end

