-- ==== Sys2Proof/Machine/State.lean ====
section
/-! DEFINITION. The state of HLL-CORE (10_state.md R20) with the two ends of its command port, and the state after
reset (10_state.md R32, 70_reset_and_hazards.md R160). -/

namespace Sys2Proof.Machine

/-- What STATUS says (60_exceptions.md R140); `Status.code` (Machine/Flags.lean) gives its 3 bits. -/
inductive Status where
  | ok
  | errIllegal
  | errNotConfigured
  | errInvalidPrecision
  | errAlreadyConfigured
  | errIndexRange
  deriving DecidableEq, Repr

/-- The one response of a command: STATUS and RESULT (30_encoding.md R62). -/
structure Response where
  status : Status
  result : Word
  deriving DecidableEq, Repr

/-- A move of the host on the block (70_reset_and_hazards.md R163, R164). -/
inductive HostEvent where
  /-- Send one command word on the command port. -/
  | command (w : CommandWord)
  /-- Reset the block; it falls between commands (R161). -/
  | reset
  deriving DecidableEq, Repr

/-- The register file `REG[0..MMAX-1]` as its entries that are not 0, by rising index; an index that is not listed
reads 0 (`RegFile.read`, `RegFile.wf` in Machine/Ops.lean; DESIGN CHOICE, notes/assumptions/2.md). -/
abbrev RegFile := List (Nat × Reg)

/-- The state. `cfg`, `b` and `reg` are all the spec gives the block (10_state.md R20; `M` is `2^B`, R23). `port` and
`responses` are the model's own (DESIGN CHOICE, notes/assumptions/3.md): the command port seen from the host. -/
structure State where
  /-- `CFG`, the configured flag (10_state.md R21). -/
  cfg : Bool
  /-- `B`, the precision (10_state.md R22). -/
  b : BitVec 5
  /-- `REG`, the register file (10_state.md R24, R28). -/
  reg : RegFile
  /-- The host's moves still to come, oldest first (70_reset_and_hazards.md R163). -/
  port : List HostEvent
  /-- The responses sent so far, oldest first (70_reset_and_hazards.md R165); no command reads them (10_state.md R30). -/
  responses : List Response
  deriving DecidableEq, Repr

/-- Why the machine stops. The spec has no stop: an error is a STATUS and the next command runs (60_exceptions.md R142). -/
inductive Fault where
  /-- Raised by UPDATE, READREG, NUMZEROS and HISTBIN on an index of `MMAX` or more, where there is no entry at all
  (00_scope.md R8). Safe: it needs `B > 16` with `CFG = 1`, which no run reaches (DESIGN CHOICE, notes/assumptions/4.md). -/
  | noSuchEntry
  deriving DecidableEq, Repr

/-- Why an instruction has no meaning in the model. -/
inductive Refusal where
  /-- Raised by an arm of `exec` that is not written yet; no arm is. Safe: the model stops where the hardware goes on. -/
  | notModelled (mnemonic : String)
  deriving DecidableEq, Repr

/-- What a command or a step answers. -/
abbrev Answer := Host.Outcome State Fault Refusal

/-- The machine right after reset (10_state.md R32): `CFG` = 0. `B` and `REG` are unspecified by the spec and cannot be
read before INIT; the model names them 0 (DESIGN CHOICE, notes/assumptions/1.md). Nothing is waiting on the port. -/
def State.reset : State :=
  { cfg := false, b := 0#5, reg := [], port := [], responses := [] }

end Sys2Proof.Machine
end

