-- ==== Sys2Proof/Machine/Ops.lean ====
section
/-! DEFINITION. The named operations: the register file (10_state.md section 3, 20_memory.md R44), responses
(00_scope.md R13), raising an error (60_exceptions.md R142), the command port and reset (70_reset_and_hazards.md). -/

namespace Sys2Proof.Machine

/-! ## The register file -/

/-- `REG[j]`: the listed entry, or 0 where none is listed. -/
def RegFile.read : RegFile → Nat → Reg
  | [], _ => 0#6
  | (k, v) :: rest, j => if k = j then v else RegFile.read rest j

/-- `REG[j] <- v`, the whole entry (20_memory.md R44), kept in canonical form. -/
def RegFile.write : RegFile → Nat → Reg → RegFile
  | [], j, v => if v = 0#6 then [] else [(j, v)]
  | (k, u) :: rest, j, v =>
    if j < k then
      if v = 0#6 then (k, u) :: rest else (j, v) :: (k, u) :: rest
    else if j = k then
      if v = 0#6 then rest else (j, v) :: rest
    else
      (k, u) :: RegFile.write rest j v

/-- Every entry 0: what INIT's loop over `0 .. MMAX-1` leaves (40_config.md R81). -/
def RegFile.cleared : RegFile := []

/-- The canonical form: indexes strictly rising and below `MMAX`, no entry 0. -/
abbrev RegFile.wf (f : RegFile) : Prop :=
  f.Pairwise (fun x y => x.1 < y.1) ∧ ∀ c ∈ f, c.1 < Config.mMax ∧ c.2 ≠ 0#6

/-- The counting loop of NUMZEROS and HISTBIN: how many `j` below the bound have `p REG[j]` (42_readout.md R101, R102). -/
def RegFile.countBelow (f : RegFile) (p : Reg → Bool) : Nat → Nat
  | 0 => 0
  | n + 1 => RegFile.countBelow f p n + (if p (RegFile.read f n) then 1 else 0)

/-- Use entry `j` of the register file; an index of `MMAX` or more has no entry (00_scope.md R8). -/
def withEntry (s : State) (j : Nat) (use : Reg → Answer) : Answer :=
  if j < Config.mMax then use (RegFile.read s.reg j) else .fault .noSuchEntry

/-- Use all entries below `n`, which must all exist (00_scope.md R8). -/
def withEntriesBelow (n : Nat) (use : Answer) : Answer :=
  if n ≤ Config.mMax then use else .fault .noSuchEntry

/-! ## Responses and errors -/

/-- `respond(status, result)` ends a command with its one response (00_scope.md R13, 30_encoding.md R62). -/
def State.respond (s : State) (status : Status) (result : Word) : State :=
  { s with responses := s.responses ++ [{ status := status, result := result }] }

/-- `respond(OK, result)`. -/
def answerOk (s : State) (result : Word) : Answer := .next (s.respond .ok result)

/-- `raise Error(code)` means `respond(code, 0)` with no state changed (00_scope.md R13, 60_exceptions.md R142). It is
all there is to an exception here: no trap, no saved state, no vector, no return (60_exceptions.md R144, R145). -/
def raiseError (s : State) (code : Status) : Answer := .next (s.respond code 0#64)

/-! ## The port and reset -/

/-- The host's next move and the state with it taken off the port; none while the block waits (60_exceptions.md R152). -/
def State.takeMove (s : State) : Option (HostEvent × State) :=
  match s.port with
  | [] => none
  | e :: rest => some (e, { s with port := rest })

/-- With no command the block is idle and nothing changes (60_exceptions.md R146, R152). -/
def idle (s : State) : State := s

/-- Reset (70_reset_and_hazards.md R160): the block's state becomes that of 10_state.md R32, with no response. What the
host has still to send and what it has received stay (DESIGN CHOICE, notes/assumptions/10.md). -/
def takeReset (s : State) : State :=
  { State.reset with port := s.port, responses := s.responses }

/-- Put a command word on the port as the host's next move. -/
def State.sendNext (s : State) (w : CommandWord) : State :=
  { s with port := .command w :: s.port }

end Sys2Proof.Machine
end

