-- ==== Sys2Proof/Machine/Operands.lean ====
section
/-! DEFINITION. What is computed from DATA: the bit counters (00_scope.md R10, R11), the index mux and the rank path
(41_update.md R90, R91), INIT's precision (40_config.md R81). Values are computed exactly as natural numbers; `zext64`
narrows at the end. -/

namespace Sys2Proof.Machine

/-- `zext_64` of an exact result (00_scope.md R12); every result of a command is below 2^64. -/
def zext64 (n : Nat) : Word := BitVec.ofNat 64 n

/-- The loop of `clz64` with `n` bits, `n-1` down to 0, still to look at: 0 bits before the first 1 bit. -/
def clzBelow (x : Word) : Nat → Nat
  | 0 => 0
  | n + 1 => if x.getLsbD n then 0 else clzBelow x n + 1

/-- `clz64(x)`: the number of consecutive 0 bits from bit 63 downward; 64 for `x = 0` (00_scope.md R10). -/
def clz64 (x : Word) : Nat := clzBelow x 64

/-- The number of 1 bits of `x` among bits `n-1 .. 0`. -/
def onesBelow (x : Word) : Nat → Nat
  | 0 => 0
  | n + 1 => onesBelow x n + (if x.getLsbD n then 1 else 0)

/-- `popcount64(x)`: the number of bits `i` in 0..63 with `x[i] = 1` (00_scope.md R11). -/
def popcount64 (x : Word) : Nat := onesBelow x 64

/-- `M = 2^B` (10_state.md R23). -/
def State.m (s : State) : Nat := 2 ^ s.b.toNat

/-- `index(value) = value[B-1:0]`, the low `B` bits as an unsigned integer (41_update.md R90). -/
def State.index (s : State) (value : Word) : Nat := value.toNat % s.m

/-- `rank(value) = clz64(value >> B) - B + 1` (41_update.md R91); `clz64(value >> B) ≥ B`, so nothing is cut off. -/
def State.rank (s : State) (value : Word) : Nat :=
  clz64 (value >>> s.b.toNat) - s.b.toNat + 1

/-- INIT's operand is legal: `4 <= DATA <= 16` on the whole word (30_encoding.md R66). -/
def legalPrecision (data : Word) : Bool :=
  decide (Config.bMin ≤ data.toNat) && decide (data.toNat ≤ Config.bMax)

/-- `DATA[4:0]`, what INIT stores in `B` (40_config.md R81). -/
def precisionBits (data : Word) : BitVec 5 := data.extractLsb' 0 5

/-- A register's value as NUMZEROS tests it (42_readout.md R101). -/
def isZeroReg (r : Reg) : Bool := r == 0#6

/-- A register's zero-extended value as HISTBIN compares it with the whole DATA (42_readout.md R102). -/
def holdsValue (k : Word) (r : Reg) : Bool := zext64 r.toNat == k

end Sys2Proof.Machine
end

