-- ==== Sys2Proof/Machine/Flags.lean ====
section
/-! DEFINITION. HLL-CORE has no condition flags (10_state.md R30); what a command leaves to look at is STATUS. This file
holds STATUS: its codes (60_exceptions.md R140) and the checks that choose it, in the order of 60_exceptions.md R141. -/

namespace Sys2Proof.Machine

/-- The 3 bits of STATUS (60_exceptions.md R140); 6 and 7 are never produced. -/
def Status.code : Status → BitVec 3
  | .ok => 0#3
  | .errIllegal => 1#3
  | .errNotConfigured => 2#3
  | .errInvalidPrecision => 3#3
  | .errAlreadyConfigured => 4#3
  | .errIndexRange => 5#3

/-- What the host reads on the response port: STATUS, 3 bits, and RESULT, 64 bits (30_encoding.md R62). -/
def Response.onPort (r : Response) : BitVec 3 × Word := (r.status.code, r.result)

/-- A reserved opcode: ERR_ILLEGAL, and nothing else is checked (30_encoding.md R65, 60_exceptions.md R141 item 1). -/
def illegalCommand (s : State) : Answer := raiseError s .errIllegal

/-- The state check of the commands that need `CFG = 1` (60_exceptions.md R141 item 2). -/
def requireConfigured (s : State) (go : Answer) : Answer :=
  if s.cfg then go else raiseError s .errNotConfigured

/-- The state check of INIT (60_exceptions.md R141 item 2). -/
def requireUnconfigured (s : State) (go : Answer) : Answer :=
  if s.cfg then raiseError s .errAlreadyConfigured else go

/-- The operand check of INIT (60_exceptions.md R141 item 3, 30_encoding.md R66). -/
def requirePrecision (s : State) (data : Word) (go : Answer) : Answer :=
  if legalPrecision data then go else raiseError s .errInvalidPrecision

/-- The operand check of READREG, on the whole word with no masking (60_exceptions.md R141 item 3, 42_readout.md R100). -/
def requireIndex (s : State) (j : Word) (go : Answer) : Answer :=
  if j.toNat < s.m then go else raiseError s .errIndexRange

end Sys2Proof.Machine
end

