-- ==== Sys2Proof/Machine/BitCount.lean ====
section
/-! DEFINITION. The bit-counting commands CLZ64 and POPCNT64 (43_bitcount.md): no state check, no error. -/

namespace Sys2Proof.Machine

/-- CLZ64 returns the leading-zero count (43_bitcount.md R110). -/
def execClz64 (x : Word) (s : State) : Answer := answerOk s (zext64 (clz64 x))

/-- POPCNT64 returns the number of 1 bits (43_bitcount.md R111). -/
def execPopcnt64 (x : Word) (s : State) : Answer := answerOk s (zext64 (popcount64 x))

end Sys2Proof.Machine
end

