-- ==== Sys2Proof/Machine/Configure.lean ====
section
/-! DEFINITION. The configuration commands NOP, INIT and GETB (40_config.md). -/

namespace Sys2Proof.Machine

/-- NOP does nothing, in every state and with any DATA (40_config.md R80). -/
def execNop (_data : Word) (s : State) : Answer := answerOk s 0#64

/-- INIT sets the precision, clears every entry of the register file and configures the block (40_config.md R81). -/
def execInit (b : Word) (s : State) : Answer :=
  requireUnconfigured s <| requirePrecision s b <|
    answerOk { s with cfg := true, b := precisionBits b, reg := RegFile.cleared } 0#64

/-- GETB returns the precision; DATA is ignored (40_config.md R82). -/
def execGetb (_data : Word) (s : State) : Answer :=
  requireConfigured s <| answerOk s (zext64 s.b.toNat)

end Sys2Proof.Machine
end

