-- ==== Sys2Proof/Machine/Readout.lean ====
section
/-! DEFINITION. The readout commands READREG, NUMZEROS and HISTBIN (42_readout.md). -/

namespace Sys2Proof.Machine

/-- READREG returns one register; the index is checked, not masked (42_readout.md R100). -/
def execReadreg (j : Word) (s : State) : Answer :=
  requireConfigured s <| requireIndex s j <| withEntry s j.toNat fun r => answerOk s (zext64 r.toNat)

/-- NUMZEROS returns the number of visible registers that hold 0; DATA is ignored (42_readout.md R101). -/
def execNumzeros (_data : Word) (s : State) : Answer :=
  requireConfigured s <| withEntriesBelow s.m <| answerOk s (zext64 (s.reg.countBelow isZeroReg s.m))

/-- HISTBIN returns the number of visible registers that hold exactly `k` (42_readout.md R102). -/
def execHistbin (k : Word) (s : State) : Answer :=
  requireConfigured s <| withEntriesBelow s.m <| answerOk s (zext64 (s.reg.countBelow (holdsValue k) s.m))

end Sys2Proof.Machine
end

