-- ==== Sys2Proof/Machine/Update.lean ====
section
/-! DEFINITION. The update path: UPDATE, IDX and RANK (41_update.md). -/

namespace Sys2Proof.Machine

/-- UPDATE: `REG[index]` takes the rank when the rank is strictly larger (41_update.md R92). -/
def execUpdate (value : Word) (s : State) : Answer :=
  requireConfigured s <| withEntry s (s.index value) fun held =>
    if held.toNat < s.rank value then
      answerOk { s with reg := s.reg.write (s.index value) (BitVec.ofNat 6 (s.rank value)) } 0#64
    else
      answerOk s 0#64

/-- IDX returns the index UPDATE would select (41_update.md R90). -/
def execIdx (value : Word) (s : State) : Answer :=
  requireConfigured s <| answerOk s (zext64 (s.index value))

/-- RANK returns the rank UPDATE would compute (41_update.md R91). -/
def execRank (value : Word) (s : State) : Answer :=
  requireConfigured s <| answerOk s (zext64 (s.rank value))

end Sys2Proof.Machine
end

