-- ==== Sys2Proof/Machine/Dispatch.lean ====
section
/-! DEFINITION. One arm per command: each calls its meaning (30_encoding.md R64). -/

namespace Sys2Proof.Machine

def exec (i : Instr) (s : State) : Host.Outcome State Fault Refusal :=
  match i with
  | .nop data => Sys2Proof.Machine.execNop data s
  | .init b => Sys2Proof.Machine.execInit b s
  | .update value => Sys2Proof.Machine.execUpdate value s
  | .readreg j => Sys2Proof.Machine.execReadreg j s
  | .numzeros data => Sys2Proof.Machine.execNumzeros data s
  | .histbin k => Sys2Proof.Machine.execHistbin k s
  | .getb data => Sys2Proof.Machine.execGetb data s
  | .clz64 x => Sys2Proof.Machine.execClz64 x s
  | .popcnt64 x => Sys2Proof.Machine.execPopcnt64 x s
  | .idx value => Sys2Proof.Machine.execIdx value s
  | .rank value => Sys2Proof.Machine.execRank value s

end Sys2Proof.Machine
end

