-- ==== Sys2Proof/Machine/Step.lean ====
section
/-! DEFINITION. One step: the host's next move (70_reset_and_hazards.md R163). A command word is decoded and executed as
one indivisible step (20_memory.md R45); a reserved opcode is answered ERR_ILLEGAL (30_encoding.md R65); reset and an
idle port as 70_reset_and_hazards.md R160 and 60_exceptions.md R152 say. -/

namespace Sys2Proof.Machine

def step (s : State) : Host.Outcome State Fault Refusal :=
  match s.takeMove with
  | none => .next (idle s)
  | some (.reset, t) => .next (takeReset t)
  | some (.command w, t) =>
    match decode w with
    | .ok i => exec i t
    | .error _ => illegalCommand t

/-- `s` with the given command word as the host's very next move (notes/assumptions/8.md). -/
def State.withFetchWord (s : State) (nbits w : Nat) : State := s.sendNext (tableWord nbits w)

end Sys2Proof.Machine
end

