-- ==== Sys2Proof/Machine/Assembler.lean ====
section
/-! DEFINITION. The notation of the spec's programs: a word written `OP:DATA` (30_encoding.md R61) and the assembly syntax
`MNEMONIC [operand]` with `.word OP:DATA` (30_encoding.md R69). Text is a list of characters;
what the rules leave open in it is notes/assumptions/9.md (DESIGN CHOICE). -/

namespace Sys2Proof.Machine

/-! ## Numbers -/

/-- The hexadecimal digit of a number below 16, as the spec writes it. -/
def hexChar (n : Nat) : Char := if n < 10 then Char.ofNat (48 + n) else Char.ofNat (55 + n)

/-- `width` hexadecimal digits of `n`, the most significant first. -/
def hexDigits : (width n : Nat) → List Char
  | 0, _ => []
  | width + 1, n => hexDigits width (n / 16) ++ [hexChar (n % 16)]

/-- The value of a digit in a base up to 16; letters of either case. -/
def digitValue (base : Nat) (c : Char) : Option Nat :=
  let code := c.toNat
  let value :=
    if 48 ≤ code ∧ code ≤ 57 then code - 48
    else if 65 ≤ code ∧ code ≤ 70 then code - 55
    else if 97 ≤ code ∧ code ≤ 102 then code - 87
    else base
  if value < base then some value else none

/-- The number that continues `acc` with the given digits. -/
def readDigits (base : Nat) : (acc : Nat) → List Char → Option Nat
  | acc, [] => some acc
  | acc, c :: rest =>
    match digitValue base c with
    | some d => readDigits base (acc * base + d) rest
    | none => none

/-- An operand: hexadecimal with the prefix `0x`, or decimal (30_encoding.md R69). -/
def readNumber : List Char → Option Nat
  | [] => none
  | '0' :: 'x' :: c :: rest => readDigits 16 0 (c :: rest)
  | c :: rest => readDigits 10 0 (c :: rest)

/-! ## Words -/

/-- A command word as `OP:DATA`: one digit, a colon, sixteen digits (30_encoding.md R61). -/
def wordText (w : CommandWord) : List Char :=
  hexDigits 1 (fieldsOf w).op.toNat ++ ':' :: hexDigits 16 (fieldsOf w).data.toNat

/-- The command word written `OP:DATA` (30_encoding.md R61). -/
def readWordText : List Char → Option CommandWord
  | op :: ':' :: digits =>
    if digits.length = 16 then
      match digitValue 16 op, readDigits 16 0 digits with
      | some o, some d => some (wordOf { op := BitVec.ofNat 4 o, data := BitVec.ofNat 64 d })
      | _, _ => none
    else none
  | _ => none

/-! ## Commands -/

/-- The mnemonic of a command (30_encoding.md R64). -/
def mnemonicOf : Instr → List Char
  | .nop _ => ['N', 'O', 'P']
  | .init _ => ['I', 'N', 'I', 'T']
  | .update _ => ['U', 'P', 'D', 'A', 'T', 'E']
  | .readreg _ => ['R', 'E', 'A', 'D', 'R', 'E', 'G']
  | .numzeros _ => ['N', 'U', 'M', 'Z', 'E', 'R', 'O', 'S']
  | .histbin _ => ['H', 'I', 'S', 'T', 'B', 'I', 'N']
  | .getb _ => ['G', 'E', 'T', 'B']
  | .clz64 _ => ['C', 'L', 'Z', '6', '4']
  | .popcnt64 _ => ['P', 'O', 'P', 'C', 'N', 'T', '6', '4']
  | .idx _ => ['I', 'D', 'X']
  | .rank _ => ['R', 'A', 'N', 'K']

/-- The commands whose DATA is an operand; NOP, GETB and NUMZEROS ignore it (30_encoding.md R63, R67). -/
def readsData : Instr → Bool
  | .nop _ => false
  | .numzeros _ => false
  | .getb _ => false
  | .init _ => true
  | .update _ => true
  | .readreg _ => true
  | .histbin _ => true
  | .clz64 _ => true
  | .popcnt64 _ => true
  | .idx _ => true
  | .rank _ => true

/-- The command a mnemonic names, with the given DATA. -/
def commandNamed (data : Word) (name : List Char) : Option Instr :=
  [Instr.nop data, .init data, .update data, .readreg data, .numzeros data, .histbin data, .getb data, .clz64 data,
    .popcnt64 data, .idx data, .rank data].find? fun i => mnemonicOf i == name

/-- The directive for a raw word (30_encoding.md R69). -/
def wordDirective : List Char := ['.', 'w', 'o', 'r', 'd']

/-- A mnemonic and the number given as its operand, if any: an operand stands exactly with the commands that read DATA,
an operandless mnemonic has DATA 0 (30_encoding.md R69). -/
def assembleCommand (name : List Char) (operand : Option Nat) : Option CommandWord :=
  let n := operand.getD 0
  match commandNamed (BitVec.ofNat 64 n) name with
  | some i => if readsData i = operand.isSome ∧ n < 2 ^ 64 then some (encode i) else none
  | none => none

/-- The command word of one line of assembly (30_encoding.md R69); none where the line is no command. -/
def assemble (line : List Char) : Option CommandWord :=
  let name := line.takeWhile (· != ' ')
  match line.dropWhile (· != ' ') with
  | [] => assembleCommand name none
  | _ :: operand =>
    if name = wordDirective then readWordText operand
    else
      match readNumber operand with
      | some n => assembleCommand name (some n)
      | none => none

/-- A raw word as a line of assembly. -/
def rawLine (w : CommandWord) : List Char := wordDirective ++ ' ' :: wordText w

/-- A line of assembly for any command word: by mnemonic where the syntax has one for it, else `.word`. -/
def disassemble (w : CommandWord) : List Char :=
  match decode w with
  | .ok i =>
    if readsData i then mnemonicOf i ++ ' ' :: '0' :: 'x' :: hexDigits 16 (operandOf i).toNat
    else if operandOf i = 0#64 then mnemonicOf i
    else rawLine w
  | .error _ => rawLine w

end Sys2Proof.Machine
end

