-- ==== Sys2Proof/Machine/HostSide.lean ====
section
/-! DEFINITION. The host-side estimator (48_host_side.md). It is software outside the block (00_scope.md R4) and no part
of `step`: functions of the answers the block gives to commands, over the OPEN parameter `HostFloat`. -/

namespace Sys2Proof.Machine

/-! ## Talking to the block -/

/-- The operations of the source's API (30_encoding.md R70). -/
inductive ApiOp where
  | construct (b : Word)
  | update (value : Word)
  | numZeros
  | histogram
  | b
  | alpha
  | rawEstimate
  | estimate
  deriving DecidableEq, Repr

/-- `READREG j` for `j = 0..m-1`. -/
def readAllRegs (m : Nat) : List Instr := (List.range m).map fun j => .readreg (BitVec.ofNat 64 j)

/-- `HISTBIN k` for `k = 0..65-b`. -/
def readAllBins (b : Nat) : List Instr := (List.range (66 - b)).map fun k => .histbin (BitVec.ofNat 64 k)

/-- The commands an API operation sends to a block of precision `b` (30_encoding.md R70); `alpha` needs
`b` alone, the estimates read every register, and `estimate` the count of zeros too (48_host_side.md R120-R122). -/
def ApiOp.commands (b : Nat) : ApiOp → List Instr
  | .construct p => [.init p]
  | .update v => [.update v]
  | .numZeros => [.numzeros 0#64]
  | .histogram => readAllBins b
  | .b => [.getb 0#64]
  | .alpha => [.getb 0#64]
  | .rawEstimate => readAllRegs (2 ^ b)
  | .estimate => readAllRegs (2 ^ b) ++ [.numzeros 0#64]

/-- The responses the host gets when it sends the commands in order, each after the response to the one before
(70_reset_and_hazards.md R163). -/
def answers : State → List Instr → List Response
  | _, [] => []
  | s, i :: rest =>
    match exec i s with
    | .next t => t.responses.drop s.responses.length ++ answers t rest
    | .fault _ => []
    | .refused _ => []

/-- The RESULT of a response whose STATUS is OK. -/
def Response.value (r : Response) : Option Nat := if r.status = .ok then some r.result.toNat else none

/-- The RESULTs of the responses to some commands, if every STATUS is OK. -/
def results (s : State) (is : List Instr) : Option (List Nat) := (answers s is).mapM Response.value

/-- The RESULT of one command, if its STATUS is OK. -/
def resultOf (s : State) (i : Instr) : Option Nat := (results s [i]).bind List.head?

/-! ## The estimator -/

/-- `alpha(m)`, the bias-correction constant (48_host_side.md R120). -/
def alpha {F : Type} (hf : HostFloat F) (m : Nat) : F :=
  if m = 16 then hf.decimal 673 3
  else if m = 32 then hf.decimal 697 3
  else if m = 64 then hf.decimal 709 3
  else hf.div (hf.decimal 7213 4) (hf.add (hf.ofNat 1) (hf.div (hf.decimal 1079 3) (hf.ofNat m)))

/-- `2^(-r)`, a term of the harmonic mean (48_host_side.md R121). The spec gives the term's value only; that it is formed as
`HostFloat`'s own division `1 / 2^r` is the model's (DESIGN CHOICE, notes/assumptions/6.md). -/
def powNeg {F : Type} (hf : HostFloat F) (r : Nat) : F := hf.div (hf.ofNat 1) (hf.ofNat (2 ^ r))

/-- `alpha(m) * m^2 / S` over the register values read (48_host_side.md R121), grouped from the left with `m^2` formed as a
natural number (DESIGN CHOICE, notes/assumptions/6.md). -/
def rawFromRegs {F : Type} (hf : HostFloat F) (m : Nat) (regs : List Nat) : F :=
  hf.div (hf.mul (alpha hf m) (hf.ofNat (m * m))) (hf.sum (regs.map (powNeg hf)))

/-- The three regimes, evaluated in order, over the raw estimate and the number of zero registers (48_host_side.md R122).
How its constants and signs become operations of `HostFloat` is the model's (DESIGN CHOICE, notes/assumptions/6.md). -/
def correct {F : Type} (hf : HostFloat F) (m nz : Nat) (e : F) : F :=
  if hf.le e (hf.mul (hf.decimal 25 1) (hf.ofNat m)) then
    if nz ≠ 0 then hf.mul (hf.ofNat m) (hf.ln (hf.div (hf.ofNat m) (hf.ofNat nz))) else e
  else if hf.lt (hf.div (hf.ofNat (2 ^ 32)) (hf.ofNat 30)) e then
    hf.mul (hf.neg (hf.ofNat (2 ^ 32))) (hf.ln1p (hf.div (hf.neg e) (hf.ofNat (2 ^ 32))))
  else e

/-- `rawEstimate()`: GETB gives `m`, then every register is read (48_host_side.md R120, R121). -/
def rawEstimate {F : Type} (hf : HostFloat F) (s : State) : Option F :=
  match resultOf s (.getb 0#64) with
  | some b => (results s (readAllRegs (2 ^ b))).map (rawFromRegs hf (2 ^ b))
  | none => none

/-- `estimate()` (48_host_side.md R122). -/
def estimate {F : Type} (hf : HostFloat F) (s : State) : Option F :=
  match resultOf s (.getb 0#64), rawEstimate hf s, resultOf s (.numzeros 0#64) with
  | some b, some e, some nz => some (correct hf (2 ^ b) nz e)
  | _, _, _ => none

/-- `histogram()`: the pairs (value, count) with a count that is not 0 (48_host_side.md R124), keys rising
(DESIGN CHOICE, notes/assumptions/6.md). -/
def histogram (s : State) : Option (List (Nat × Nat)) :=
  match resultOf s (.getb 0#64) with
  | some b =>
    (results s (readAllBins b)).map fun counts =>
      ((List.range (66 - b)).zip counts).filter fun kc => kc.2 != 0
  | none => none

/-- Exact real arithmetic as the host's arithmetic: one value of the OPEN parameter, for claims about the formulas
themselves (DESIGN CHOICE, notes/assumptions/6.md). Outside its domain a logarithm is a FREE VALUE, so the large-range
result for a raw estimate of 2^32 or more, where `ln1p` is at or below -1, is left open as 48_host_side.md R126 and
93_implementation_defined.md U9 leave it (notes/assumptions/12.md). -/
noncomputable def HostFloat.exact : HostFloat ℝ where
  ofNat n := n
  decimal digits places := digits / 10 ^ places
  add x y := x + y
  mul x y := x * y
  div x y := x / y
  neg x := -x
  sum xs := xs.sum
  ln x := if 0 < x then Real.log x else Config.freeLn x
  ln1p x := if -1 < x then Real.log (1 + x) else Config.freeLn1p x
  le x y := decide (x ≤ y)
  lt x y := decide (x < y)

end Sys2Proof.Machine
end

