-- ==== Sys2Proof/Safety.lean ====
section
/-! DEFINITION. The terms claims use: legal states, what the block itself holds, runs. -/

namespace Sys2Proof

open Machine

/-- The legal states: the register file is in canonical form and, while `CFG = 1`, `B` is in 4..16 (10_state.md R22),
hidden entries are 0 (10_state.md R28) and every register is at most `65 - B` (41_update.md R96). -/
abbrev Machine.State.Legal (s : State) : Prop :=
  RegFile.wf s.reg ∧
    (s.cfg = true → Config.bMin ≤ s.b.toNat ∧ s.b.toNat ≤ Config.bMax ∧
      ∀ c ∈ s.reg, c.1 < s.m ∧ c.2.toNat ≤ 65 - s.b.toNat)

/-- Two states hold the same in the block: `CFG`, `B` and `REG` (10_state.md R20). -/
abbrev Machine.State.SameBlock (s t : State) : Prop := t.cfg = s.cfg ∧ t.b = s.b ∧ t.reg = s.reg

/-- The value of `REG[j]` in a state, as a number. -/
def Machine.State.regVal (s : State) (j : Nat) : Nat := (s.reg.read j).toNat

/-- What the end of a run shows (70_reset_and_hazards.md R165): the responses, and while `CFG = 1` the precision and the
visible registers. While `CFG = 0` it says nothing of `B` and `REG`, and it never says anything of hidden entries. -/
structure Machine.Observation where
  responses : List Response
  block : Option (BitVec 5 × List Reg)
  deriving DecidableEq, Repr

/-- The observation of a state (70_reset_and_hazards.md R165). -/
def Machine.State.observe (s : State) : Observation :=
  { responses := s.responses
    block := if s.cfg then some (s.b, (List.range s.m).map s.reg.read) else none }

/-- Run the commands in order, as a host does that sends each after the response to the one before
(70_reset_and_hazards.md R163). -/
def Machine.execAll : List Instr → State → Answer
  | [], s => .next s
  | i :: rest, s =>
    match exec i s with
    | .next t => Machine.execAll rest t
    | .fault f => .fault f
    | .refused r => .refused r

end Sys2Proof
end

