-- ==== Sys2Proof/Certificates/Slice0/Obligations.lean ====
section
/-! DEFINITION. The statements for the provers, from the numbered rules of spec/. `respond st r` appends the one response
`(st, r)` and changes nothing else, so an equation `exec i s = .next (s.respond st r)` gives the result, the completion and
the whole frame at once. -/

open Sys2Proof Sys2Proof.Machine

/-! ## One command each: encoding, result, errors -/

/-- 40_config.md R80. -/
def Obligations.NopAnswersZeroInEveryState : Prop :=
  ∀ (data : Word) (s : State),
    encode (.nop data) = 0x0#4 ++ data ∧
    exec (.nop data) s = .next { s with responses := s.responses ++ [{ status := .ok, result := 0#64 }] }

/-- 40_config.md R81: both checks in order, the stored precision, and every entry cleared. -/
def Obligations.InitConfiguresAndClears : Prop :=
  ∀ (b : Word) (s : State),
    encode (.init b) = 0x1#4 ++ b ∧
    (s.cfg = true → exec (.init b) s = .next (s.respond .errAlreadyConfigured 0#64)) ∧
    (s.cfg = false → ¬ (4 ≤ b.toNat ∧ b.toNat ≤ 16) →
      exec (.init b) s = .next (s.respond .errInvalidPrecision 0#64)) ∧
    (s.cfg = false → 4 ≤ b.toNat → b.toNat ≤ 16 →
      ∃ t, exec (.init b) s = .next t ∧ t.cfg = true ∧ t.b = b.extractLsb' 0 5 ∧ t.b.toNat = b.toNat ∧
        t.m = 2 ^ b.toNat ∧ (∀ j, t.regVal j = 0) ∧ t.port = s.port ∧
        t.responses = s.responses ++ [{ status := .ok, result := 0#64 }])

/-- 40_config.md R82; the corner case (the result is in 4..16) is for legal states. -/
def Obligations.GetbReturnsPrecision : Prop :=
  ∀ (data : Word) (s : State),
    encode (.getb data) = 0x6#4 ++ data ∧
    (s.cfg = false → exec (.getb data) s = .next (s.respond .errNotConfigured 0#64)) ∧
    (s.cfg = true → exec (.getb data) s = .next (s.respond .ok (s.b.setWidth 64))) ∧
    (s.Legal → s.cfg = true → 4 ≤ (s.b.setWidth 64).toNat ∧ (s.b.setWidth 64).toNat ≤ 16)

/-- 41_update.md R90: bit by bit, the result is the low `B` bits of the value, and it is below `M`. -/
def Obligations.IdxReturnsLowBits : Prop :=
  ∀ (value : Word) (s : State),
    encode (.idx value) = 0x9#4 ++ value ∧
    (s.cfg = false → exec (.idx value) s = .next (s.respond .errNotConfigured 0#64)) ∧
    (s.cfg = true → ∃ r : Word, exec (.idx value) s = .next (s.respond .ok r) ∧
      (∀ i, r.getLsbD i = (decide (i < s.b.toNat) && value.getLsbD i)) ∧ r.toNat < s.m ∧
      r.toNat = s.index value)

/-- 41_update.md R91: the formula, its range, no underflow, and the closed form by the highest 1 bit at or above `B`. -/
def Obligations.RankIsPositionOfFirstOne : Prop :=
  ∀ (value : Word) (s : State),
    encode (.rank value) = 0xA#4 ++ value ∧
    (s.cfg = false → exec (.rank value) s = .next (s.respond .errNotConfigured 0#64)) ∧
    (s.cfg = true → ∃ r : Word, exec (.rank value) s = .next (s.respond .ok r) ∧
      r.toNat = s.rank value ∧
      s.b.toNat ≤ clz64 (value >>> s.b.toNat) ∧
      r.toNat + s.b.toNat = clz64 (value >>> s.b.toNat) + 1 ∧
      1 ≤ r.toNat ∧ r.toNat ≤ 65 - s.b.toNat ∧
      (∀ q < 64, s.b.toNat ≤ q → value.getLsbD q = true → (∀ i, q < i → i < 64 → value.getLsbD i = false) →
        r.toNat = 64 - q) ∧
      ((∀ i, s.b.toNat ≤ i → i < 64 → value.getLsbD i = false) → r.toNat = 65 - s.b.toNat))

/-- 41_update.md R92: the selected register takes the maximum, is not written on an equal or smaller rank, and is at
least 1 and within `65 - B` afterwards; `B` is a legal precision, as it is whenever `CFG = 1` (10_state.md R22). -/
def Obligations.UpdateTakesTheMaximum : Prop :=
  ∀ (value : Word) (s : State),
    encode (.update value) = 0x2#4 ++ value ∧
    (s.cfg = false → exec (.update value) s = .next (s.respond .errNotConfigured 0#64)) ∧
    (s.cfg = true → 4 ≤ s.b.toNat → s.b.toNat ≤ 16 → ∃ t, exec (.update value) s = .next t ∧
      t.regVal (s.index value) = max (s.regVal (s.index value)) (s.rank value) ∧
      (s.rank value ≤ s.regVal (s.index value) → t.reg = s.reg) ∧
      (∀ j, j ≠ s.index value → t.regVal j = s.regVal j) ∧
      1 ≤ t.regVal (s.index value) ∧
      (s.regVal (s.index value) ≤ 65 - s.b.toNat → t.regVal (s.index value) ≤ 65 - s.b.toNat) ∧
      t.cfg = s.cfg ∧ t.b = s.b ∧ t.port = s.port ∧
      t.responses = s.responses ++ [{ status := .ok, result := 0#64 }])

/-- 42_readout.md R100: the index is checked on the whole word, never masked. -/
def Obligations.ReadregReturnsOneRegister : Prop :=
  ∀ (j : Word) (s : State),
    encode (.readreg j) = 0x3#4 ++ j ∧
    (s.cfg = false → exec (.readreg j) s = .next (s.respond .errNotConfigured 0#64)) ∧
    (s.cfg = true → s.m ≤ j.toNat → exec (.readreg j) s = .next (s.respond .errIndexRange 0#64)) ∧
    (s.cfg = true → s.b.toNat ≤ 16 → j.toNat < s.m →
      exec (.readreg j) s = .next (s.respond .ok ((s.reg.read j.toNat).setWidth 64))) ∧
    (s.Legal → s.cfg = true → s.regVal j.toNat ≤ 65 - s.b.toNat)

/-- 42_readout.md R101. -/
def Obligations.NumzerosCountsZeroRegisters : Prop :=
  ∀ (data : Word) (s : State),
    encode (.numzeros data) = 0x4#4 ++ data ∧
    (s.cfg = false → exec (.numzeros data) s = .next (s.respond .errNotConfigured 0#64)) ∧
    (s.cfg = true → s.b.toNat ≤ 16 → ∃ r : Word, exec (.numzeros data) s = .next (s.respond .ok r) ∧
      r.toNat = ((Finset.range s.m).filter fun j => s.regVal j = 0).card ∧ r.toNat ≤ s.m)

/-- 42_readout.md R102; the corner case (a `k` above `65 - B` gives 0) is for legal states. -/
def Obligations.HistbinCountsRegistersHoldingK : Prop :=
  ∀ (k : Word) (s : State),
    encode (.histbin k) = 0x5#4 ++ k ∧
    (s.cfg = false → exec (.histbin k) s = .next (s.respond .errNotConfigured 0#64)) ∧
    (s.cfg = true → s.b.toNat ≤ 16 → ∃ r : Word, exec (.histbin k) s = .next (s.respond .ok r) ∧
      r.toNat = ((Finset.range s.m).filter fun j => s.regVal j = k.toNat).card ∧ r.toNat ≤ s.m ∧
      (s.Legal → 65 - s.b.toNat < k.toNat → r = 0#64))

/-- 43_bitcount.md R110, 00_scope.md R10: in every state, 64 at 0 and else 63 less the highest 1 bit's position. -/
def Obligations.ClzCountsLeadingZeros : Prop :=
  ∀ (x : Word) (s : State),
    encode (.clz64 x) = 0x7#4 ++ x ∧
    ∃ r : Word, exec (.clz64 x) s = .next (s.respond .ok r) ∧ r.toNat ≤ 64 ∧
      (x = 0#64 → r.toNat = 64) ∧
      (∀ q < 64, x.getLsbD q = true → (∀ i, q < i → i < 64 → x.getLsbD i = false) → r.toNat = 63 - q)

/-- 43_bitcount.md R111, 00_scope.md R11: in every state, the number of 1 bits. -/
def Obligations.PopcntCountsOneBits : Prop :=
  ∀ (x : Word) (s : State),
    encode (.popcnt64 x) = 0x8#4 ++ x ∧
    ∃ r : Word, exec (.popcnt64 x) s = .next (s.respond .ok r) ∧ r.toNat ≤ 64 ∧
      r.toNat = ((Finset.range 64).filter fun i => x.getLsbD i = true).card

/-- 43_bitcount.md R112: the population count of the complement of the smeared operand is the leading-zero count. -/
def Obligations.ClzIsPopcountOfComplementedSmear : Prop :=
  ∀ x : Word,
    let y1 := x ||| (x >>> 1)
    let y2 := y1 ||| (y1 >>> 2)
    let y4 := y2 ||| (y2 >>> 4)
    let y8 := y4 ||| (y4 >>> 8)
    let y16 := y8 ||| (y8 >>> 16)
    let y32 := y16 ||| (y16 >>> 32)
    clz64 x = popcount64 (~~~ y32)

/-! ## Encoding and the step -/

/-- 30_encoding.md R68 with R60 and R64: the decoder and the encoder are inverse, on every word and every command. -/
def Obligations.DecodeIsInverseOfEncode : Prop :=
  ∀ (w : CommandWord) (i : Instr), decode w = .ok i ↔ encode i = w

/-- 30_encoding.md R64, R65, R68: a word is one of the eleven commands, by OP alone and with its DATA, or reserved. -/
def Obligations.DecodingIsTotalByOpcode : Prop :=
  ∀ w : CommandWord,
    (∃ i, decode w = .ok i ∧ (opcodeOf i).toNat = w.toNat / 2 ^ 64 ∧ (operandOf i).toNat = w.toNat % 2 ^ 64 ∧
      w.toNat / 2 ^ 64 ≤ 0xA) ∨
    (decode w = .error (.reservedOpcode (w.extractLsb' 64 4)) ∧ 0xB ≤ w.toNat / 2 ^ 64)

/-- Words written out in 40_config.md to 43_bitcount.md and 95_test_vectors.md. -/
def Obligations.SampleWordsDecode : Prop :=
  decode 0x00000000000000000#68 = .ok (.nop 0x0#64) ∧
  decode 0x10000000000000004#68 = .ok (.init 0x4#64) ∧
  decode 0x20000000000000010#68 = .ok (.update 0x10#64) ∧
  decode 0x3000000000000FFFF#68 = .ok (.readreg 0xFFFF#64) ∧
  decode 0x40000000000000000#68 = .ok (.numzeros 0x0#64) ∧
  decode 0x5000000000000003C#68 = .ok (.histbin 0x3C#64) ∧
  decode 0x60000000000000000#68 = .ok (.getb 0x0#64) ∧
  decode 0x70000000100000000#68 = .ok (.clz64 0x100000000#64) ∧
  decode 0x80123456789ABCDEF#68 = .ok (.popcnt64 0x0123456789ABCDEF#64) ∧
  decode 0x94000000000000003#68 = .ok (.idx 0x4000000000000003#64) ∧
  decode 0xA0000000000000010#68 = .ok (.rank 0x10#64) ∧
  decode 0xF0000000000001234#68 = .error (.reservedOpcode 0xF#4)

/-- The step takes the host's next move off the port and runs exactly the command its word decodes to. -/
def Obligations.StepRunsTheDecodedCommand : Prop :=
  ∀ (s : State) (w : CommandWord) (rest : List HostEvent) (i : Instr),
    s.port = .command w :: rest → decode w = .ok i → step s = exec i { s with port := rest }

/-- A word put on the port with `withFetchWord` is the very next command. -/
def Obligations.PlacedWordRunsNext : Prop :=
  ∀ (s : State) (w : CommandWord) (i : Instr),
    decode w = .ok i → step (s.withFetchWord 68 w.toNat) = exec i s

/-- 30_encoding.md R65: a reserved opcode, with any DATA and in any state. -/
def Obligations.ReservedOpcodeAnswersIllegal : Prop :=
  ∀ (s : State) (w : CommandWord) (rest : List HostEvent),
    s.port = .command w :: rest → 0xB ≤ w.toNat / 2 ^ 64 →
    step s = .next { s with port := rest, responses := s.responses ++ [{ status := .errIllegal, result := 0#64 }] }

/-- 70_reset_and_hazards.md R160: reset clears `CFG` and sends no response. What it leaves in `B` and `REG` is the model's
choice (notes/assumptions/1.md), so nothing is said of them. -/
def Obligations.ResetUnconfiguresWithoutResponse : Prop :=
  State.reset.cfg = false ∧
  ∀ (s : State) (rest : List HostEvent), s.port = .reset :: rest →
    ∃ t, step s = .next t ∧ t.cfg = false ∧ t.port = rest ∧ t.responses = s.responses

/-- 60_exceptions.md R146: with no move of the host, nothing changes. -/
def Obligations.NothingHappensWithoutACommand : Prop :=
  ∀ s : State, s.port = [] → step s = .next s

/-! ## Errors -/

/-- 60_exceptions.md R140: the codes; no response carries 6 or 7. -/
def Obligations.StatusCodesAsTabulated : Prop :=
  Status.ok.code = 0#3 ∧ Status.errIllegal.code = 1#3 ∧ Status.errNotConfigured.code = 2#3 ∧
  Status.errInvalidPrecision.code = 3#3 ∧ Status.errAlreadyConfigured.code = 4#3 ∧ Status.errIndexRange.code = 5#3 ∧
  (∀ r : Response, r.onPort.1 ≠ 6#3 ∧ r.onPort.1 ≠ 7#3 ∧ r.onPort.2 = r.result)

/-- 60_exceptions.md R141: which one status a command word gets, whatever its OP and DATA. -/
def Obligations.FirstErrorInOrderIsReported : Prop :=
  ∀ (s : State) (w : CommandWord) (rest : List HostEvent),
    s.port = .command w :: rest → (s.cfg = true → s.b.toNat ≤ 16) →
    ∃ t r, step s = .next t ∧ t.responses = s.responses ++ [r] ∧
      r.status =
        (if 0xB ≤ w.toNat / 2 ^ 64 then .errIllegal
        else if w.toNat / 2 ^ 64 = 0x1 ∧ s.cfg = true then .errAlreadyConfigured
        else if w.toNat / 2 ^ 64 ∈ [0x2, 0x3, 0x4, 0x5, 0x6, 0x9, 0xA] ∧ s.cfg = false then .errNotConfigured
        else if w.toNat / 2 ^ 64 = 0x1 ∧ ¬ (4 ≤ w.toNat % 2 ^ 64 ∧ w.toNat % 2 ^ 64 ≤ 16) then .errInvalidPrecision
        else if w.toNat / 2 ^ 64 = 0x3 ∧ 2 ^ s.b.toNat ≤ w.toNat % 2 ^ 64 then .errIndexRange
        else .ok)

/-- 60_exceptions.md R142 with 30_encoding.md R62: a command gives exactly one response, and one with an error has
RESULT 0 and has changed nothing. -/
def Obligations.ErrorsChangeNothing : Prop :=
  ∀ (s t : State) (w : CommandWord) (rest : List HostEvent),
    s.port = .command w :: rest → step s = .next t →
    ∃ r, t.responses = s.responses ++ [r] ∧ t.port = rest ∧
      (r.status ≠ .ok → r.result = 0#64 ∧ s.SameBlock t)

/-- 60_exceptions.md R143. -/
def Obligations.ConfiguredCommandsNeverFail : Prop :=
  ∀ (s : State) (d : Word), s.Legal →
    (∀ i ∈ [Instr.nop d, .clz64 d, .popcnt64 d], ∃ t r, exec i s = .next t ∧
      t.responses = s.responses ++ [{ status := .ok, result := r }]) ∧
    (s.cfg = true → ∀ i ∈ [Instr.update d, .numzeros d, .histbin d, .getb d, .idx d, .rank d], ∃ t r,
      exec i s = .next t ∧ t.responses = s.responses ++ [{ status := .ok, result := r }])

/-- 60_exceptions.md R142, 70_reset_and_hazards.md R167: no error is fatal; from a legal state every step goes on. -/
def Obligations.LegalStatesNeverStop : Prop :=
  ∀ s : State, s.Legal → ∃ t, step s = .next t

/-! ## Frames and whole-machine rules -/

/-- 10_state.md R31, 20_memory.md R46: a command other than INIT and UPDATE changes nothing of the block, leaves the host's
moves alone and adds one response; sent again at once it gets the same response. UPDATE sent again changes nothing. -/
def Obligations.ReadsHaveNoSideEffects : Prop :=
  ∀ (i : Instr) (s t : State), exec i s = .next t →
    ((∀ d, i ≠ .init d) → (∀ d, i ≠ .update d) →
      s.SameBlock t ∧ t.port = s.port ∧
      ∃ r, t.responses = s.responses ++ [r] ∧
        exec i t = .next { t with responses := t.responses ++ [r] }) ∧
    (∀ d, i = .update d → 4 ≤ s.b.toNat → ∃ r, exec i t = .next { t with responses := t.responses ++ [r] })

/-- 10_state.md R22, R24: who may change what. -/
def Obligations.OnlyInitAndUpdateChangeTheBlock : Prop :=
  ∀ (i : Instr) (s t : State), exec i s = .next t →
    (t.cfg ≠ s.cfg ∨ t.b ≠ s.b →
      ∃ d, i = .init d ∧ s.cfg = false ∧ 4 ≤ d.toNat ∧ d.toNat ≤ 16 ∧ t.cfg = true ∧ t.b.toNat = d.toNat) ∧
    (t.reg ≠ s.reg → (∃ d, i = .init d ∧ s.cfg = false) ∨ ∃ v, i = .update v ∧ s.cfg = true)

/-- 41_update.md R93, as a frame in every state: UPDATE changes at most the register of its index. -/
def Obligations.UpdateChangesAtMostOneRegister : Prop :=
  ∀ (v : Word) (s t : State), exec (.update v) s = .next t →
    t.cfg = s.cfg ∧ t.b = s.b ∧ t.port = s.port ∧ (∃ r, t.responses = s.responses ++ [r]) ∧
    ∀ j, j ≠ s.index v → t.regVal j = s.regVal j

/-- INIT leaves the host's moves alone, adds one response, and changes the block only by configuring it (40_config.md R81). -/
def Obligations.InitLeavesThePort : Prop :=
  ∀ (d : Word) (s t : State), exec (.init d) s = .next t →
    t.port = s.port ∧ (∃ r, t.responses = s.responses ++ [r]) ∧ (s.SameBlock t ∨ (s.cfg = false ∧ t.cfg = true))

/-- 10_state.md R30: what a command does depends on `CFG`, `B` and `REG` alone, not on earlier responses or on what the
host will send. -/
def Obligations.CommandsSeeOnlyTheBlock : Prop :=
  ∀ (i : Instr) (s t : State), exec i s = .next t →
    ∃ r, t.responses = s.responses ++ [r] ∧
      ∀ (p : List HostEvent) (rs : List Response),
        exec i { s with port := p, responses := rs } = .next { t with port := p, responses := rs ++ [r] }

/-- 10_state.md R21: `CFG` is set by a successful INIT alone, cleared by reset alone, seen through GETB, and while it is 0
every command that needs configuration raises ERR_NOT_CONFIGURED. -/
def Obligations.ConfiguredFlagLifecycle : Prop :=
  (∀ s t : State, step s = .next t → s.cfg = true → (t.cfg = false ↔ ∃ rest, s.port = .reset :: rest)) ∧
  (∀ s t : State, step s = .next t → s.cfg = false →
    (t.cfg = true ↔ ∃ w rest d, s.port = .command w :: rest ∧ decode w = .ok (.init d) ∧ 4 ≤ d.toNat ∧ d.toNat ≤ 16)) ∧
  (∀ (s : State) (d : Word), ∃ t r, exec (.getb d) s = .next t ∧ t.responses = s.responses ++ [r] ∧
    r.status = if s.cfg = true then .ok else .errNotConfigured) ∧
  (∀ (s : State) (d : Word), s.cfg = false →
    ∀ i ∈ [Instr.update d, .readreg d, .numzeros d, .histbin d, .getb d, .idx d, .rank d],
      exec i s = .next (s.respond .errNotConfigured 0#64))

/-- 70_reset_and_hazards.md R162: until an INIT with a legal precision has run, the block stays unconfigured. -/
def Obligations.UnconfiguredUntilSuccessfulInit : Prop :=
  ∀ (n : Nat) (s t : State), s.cfg = false →
    (∀ w d, HostEvent.command w ∈ s.port.take n → decode w = .ok (.init d) → ¬ (4 ≤ d.toNat ∧ d.toNat ≤ 16)) →
    core.run n s = .next t → t.cfg = false

/-! ## Invariants and laws of runs -/

/-- The reset state is legal. It rests on the values the model names for `B` and `REG` (notes/assumptions/1.md). -/
def Obligations.ResetIsLegal : Prop := State.reset.Legal

/-- 10_state.md R22, R28, 41_update.md R96 with the canonical form of the register file: every step keeps legal states.
Its reset case rests on the contents the model names after reset (notes/assumptions/1.md, notes/assumptions/10.md). -/
def Obligations.EveryStepKeepsLegal : Prop :=
  ∀ s t : State, s.Legal → step s = .next t → t.Legal

/-- 10_state.md R25: between INIT and the next reset no register ever decreases; a reset may wait on the port
behind the run's moves. -/
def Obligations.RegistersNeverDecrease : Prop :=
  ∀ (n : Nat) (s t : State), s.Legal → s.cfg = true → HostEvent.reset ∉ s.port.take n → core.run n s = .next t →
    ∀ j, s.regVal j ≤ t.regVal j

/-- 40_config.md R83: from a successful INIT to the next reset, GETB returns the precision INIT was given and `M` stays;
a reset may wait on the port behind the run's moves. -/
def Obligations.PrecisionIsFixedFromInitToReset : Prop :=
  ∀ (b d : Word) (n : Nat) (s u t : State), s.cfg = false → 4 ≤ b.toNat → b.toNat ≤ 16 →
    exec (.init b) s = .next u → HostEvent.reset ∉ u.port.take n → core.run n u = .next t →
    exec (.getb d) t = .next (t.respond .ok b) ∧ t.m = 2 ^ b.toNat

/-- 10_state.md R28: hidden entries hold 0 in every legal configured state, and no index UPDATE or READREG accepts reaches
one. -/
def Obligations.HiddenEntriesStayZero : Prop :=
  ∀ s : State, s.Legal → s.cfg = true →
    (∀ j, s.m ≤ j → s.regVal j = 0) ∧ (∀ v, s.index v < s.m) ∧
    (∀ j : Word, s.m ≤ j.toNat → exec (.readreg j) s = .next (s.respond .errIndexRange 0#64))

/-- 41_update.md R96: the bound `65 - B`, and it is reached only by a value with `value >> B = 0`. -/
def Obligations.RegistersAreBounded : Prop :=
  ∀ s : State, s.Legal → s.cfg = true →
    (∀ j, s.regVal j ≤ 65 - s.b.toNat) ∧
    (∀ (v : Word) (t : State) (j : Nat), exec (.update v) s = .next t →
      s.regVal j ≠ 65 - s.b.toNat → t.regVal j = 65 - s.b.toNat → v >>> s.b.toNat = 0#64)

/-- 41_update.md R95: a visible register is 0 exactly when no UPDATE since INIT has selected it; the run ends before the
next reset, which may already wait on the port. -/
def Obligations.ZeroExactlyWhenNeverSelected : Prop :=
  ∀ (b : Word) (n : Nat) (s u t : State), s.cfg = false → 4 ≤ b.toNat → b.toNat ≤ 16 →
    exec (.init b) s = .next u → HostEvent.reset ∉ u.port.take n → core.run n u = .next t →
    ∀ j < u.m, t.regVal j = 0 ↔
      ∀ w v, HostEvent.command w ∈ u.port.take n → decode w = .ok (.update v) → u.index v ≠ j

/-- 41_update.md R94: after a sequence of UPDATEs each register holds the maximum of what it held and the ranks of the
values that select it; the register file depends only on the set of values sent, not on order or repetition; and a second
UPDATE of the same value changes nothing. -/
def Obligations.UpdateOrderAndRepetitionDoNotMatter : Prop :=
  ∀ (vs ws : List Word) (s : State), s.Legal → s.cfg = true → (∀ v, v ∈ vs ↔ v ∈ ws) →
    ∃ t u, execAll (vs.map Instr.update) s = .next t ∧ execAll (ws.map Instr.update) s = .next u ∧ t.reg = u.reg ∧
      (∀ j, t.regVal j = ((vs.filter fun v => s.index v == j).map s.rank).foldr max (s.regVal j)) ∧
      (∀ v ∈ vs, s.rank v ≤ t.regVal (s.index v) ∧ ∃ u, exec (.update v) t = .next u ∧ u.reg = t.reg)

/-- 70_reset_and_hazards.md R166: a READREG straight after an UPDATE of the same index returns the updated value. -/
def Obligations.ReadAfterUpdateSeesTheWrite : Prop :=
  ∀ (v : Word) (s : State), s.Legal → s.cfg = true →
    ∃ t, exec (.update v) s = .next t ∧
      exec (.readreg (BitVec.ofNat 64 (s.index v))) t =
        .next (t.respond .ok (BitVec.ofNat 64 (max (s.regVal (s.index v)) (s.rank v))))

/-- 42_readout.md R103: the HISTBIN results for `k = 0 .. 65-B` sum to `M`. -/
def Obligations.HistogramMassIsConserved : Prop :=
  ∀ s : State, s.Legal → s.cfg = true →
    ∃ f : Nat → Word, (∀ k < 66 - s.b.toNat, exec (.histbin (BitVec.ofNat 64 k)) s = .next (s.respond .ok (f k))) ∧
      ∑ k ∈ Finset.range (66 - s.b.toNat), (f k).toNat = s.m

/-- 42_readout.md R104, in every state, configured or not. -/
def Obligations.HistbinZeroIsNumzeros : Prop :=
  ∀ (d : Word) (s : State), exec (.histbin 0#64) s = exec (.numzeros d) s

/-- 10_state.md R32, 70_reset_and_hazards.md R165: whatever `B` and `REG` hold before INIT, no run can see the difference: the
observations are equal after any number of steps, resets included. -/
def Obligations.ContentsBeforeInitAreUnobservable : Prop :=
  ∀ (n : Nat) (s s' : State), s.cfg = false → s'.cfg = false → s'.port = s.port → s'.responses = s.responses →
    ∃ t t', core.run n s = .next t ∧ core.run n s' = .next t' ∧
      t'.observe = t.observe ∧ t'.port = t.port ∧ (t.cfg = true → t.SameBlock t')

/-! ## Notation and the host side -/

/-- 30_encoding.md R61, R69: every command word has a line of assembly that assembles to it. -/
def Obligations.AssemblerReadsEveryWordBack : Prop :=
  ∀ w : CommandWord, assemble (disassemble w) = some w ∧ readWordText (wordText w) = some w

/-- 48_host_side.md R120, under exact real arithmetic (the model's choice of the OPEN `HostFloat`, notes/assumptions/6.md). -/
def Obligations.AlphaTable : Prop :=
  alpha HostFloat.exact 16 = 0.673 ∧ alpha HostFloat.exact 32 = 0.697 ∧ alpha HostFloat.exact 64 = 0.709 ∧
  ∀ m : Nat, m ≠ 16 → m ≠ 32 → m ≠ 64 → alpha HostFloat.exact m = 0.7213 / (1 + 1.079 / m)

/-- 48_host_side.md R121, for every `HostFloat`: the raw estimate is computed from the visible registers. The grouping
and the form `1 / 2^r` of a term are the model's choice (notes/assumptions/6.md). -/
def Obligations.RawEstimateReadsEveryRegister : Prop :=
  ∀ (F : Type) (hf : HostFloat F) (s : State), s.Legal → s.cfg = true →
    rawEstimate hf s = some (hf.div (hf.mul (alpha hf s.m) (hf.ofNat (s.m * s.m)))
      (hf.sum ((List.range s.m).map fun j => hf.div (hf.ofNat 1) (hf.ofNat (2 ^ s.regVal j)))))

/-- 48_host_side.md R121: the sum is positive, so the division is defined; under exact real arithmetic
(notes/assumptions/6.md). -/
def Obligations.HarmonicSumIsPositive : Prop :=
  ∀ s : State, s.Legal → s.cfg = true →
    (s.m : ℝ) / 2 ^ 61 ≤ HostFloat.exact.sum ((List.range s.m).map fun j => powNeg HostFloat.exact (s.regVal j))

/-- 48_host_side.md R123: what the small-range branch leaves is never above the large-range threshold; under exact real
arithmetic (notes/assumptions/6.md). -/
def Obligations.EstimateRegimesDoNotOverlap : Prop :=
  ∀ (b nz : Nat) (e : ℝ), 4 ≤ b → b ≤ 16 → nz ≤ 2 ^ b → e ≤ 2.5 * 2 ^ b →
    correct HostFloat.exact (2 ^ b) nz e ≤ 2 ^ 32 / 30

/-- 48_host_side.md R126: with every register at `65 - b` the raw estimate is `alpha(m) * 2^65`, and the large-range correction
is the formula of R122 for `e < 2^32`; nothing is said at 2^32 and above, where it is a free value
(notes/assumptions/12.md). Under exact real arithmetic (notes/assumptions/6.md). -/
def Obligations.LargeRangeCorrectionWithinItsDomain : Prop :=
  (∀ b : Nat, 4 ≤ b → b ≤ 16 →
    rawFromRegs HostFloat.exact (2 ^ b) (List.replicate (2 ^ b) (65 - b)) = alpha HostFloat.exact (2 ^ b) * 2 ^ 65) ∧
  (∀ (b nz : Nat) (e : ℝ), 4 ≤ b → b ≤ 16 → 2 ^ 32 / 30 < e → e < 2 ^ 32 →
    correct HostFloat.exact (2 ^ b) nz e = -2 ^ 32 * Real.log (1 - e / 2 ^ 32))

/-- 48_host_side.md R124: the histogram holds exactly the values present with their counts, and its counts sum to `M`. -/
def Obligations.HistogramHoldsExactlyThePresentValues : Prop :=
  ∀ s : State, s.Legal → s.cfg = true → ∃ h, histogram s = some h ∧
    (∀ k n, (k, n) ∈ h ↔ n ≠ 0 ∧ n = ((Finset.range s.m).filter fun j => s.regVal j = k).card) ∧
    (h.map Prod.snd).sum = s.m

/-- 48_host_side.md R125: a freshly constructed estimator estimates 0; under exact real arithmetic
(notes/assumptions/6.md). -/
def Obligations.FreshEstimateIsZero : Prop :=
  ∀ (b : Word) (s t : State), s.cfg = false → 4 ≤ b.toNat → b.toNat ≤ 16 → exec (.init b) s = .next t →
    estimate HostFloat.exact t = some 0
end

