-- ==== Sys2Proof/Laws/HostSide.lean ====
section
/-! SUPPORT. Exact real arithmetic as the host's arithmetic: the logarithms are the real ones within their domains, and
nothing is known of them outside (notes/assumptions/12.md). -/

namespace Sys2Proof.Machine

theorem HostFloat.exact_ln {x : ℝ} (h : 0 < x) : HostFloat.exact.ln x = Real.log x := if_pos h

theorem HostFloat.exact_ln1p {x : ℝ} (h : -1 < x) : HostFloat.exact.ln1p x = Real.log (1 + x) := if_pos h

theorem HostFloat.exact_ln_outside {x : ℝ} (h : x ≤ 0) : HostFloat.exact.ln x = Config.freeLn x :=
  if_neg (not_lt.mpr h)

/-- The large-range point the spec leaves open (48_host_side.md R126): a raw estimate of 2^32 or more. -/
theorem HostFloat.exact_ln1p_outside {x : ℝ} (h : x ≤ -1) : HostFloat.exact.ln1p x = Config.freeLn1p x :=
  if_neg (not_lt.mpr h)

end Sys2Proof.Machine
end

