-- ==== Sys2Proof/Laws/State.lean ====
section
/-! SUPPORT. One lemma per field per update of the state, so that no proof unfolds a record update. -/

namespace Sys2Proof.Machine

/-! ## `respond` writes `responses` alone -/

@[simp] theorem State.respond_cfg (s : State) (st : Status) (r : Word) : (s.respond st r).cfg = s.cfg := rfl
@[simp] theorem State.respond_b (s : State) (st : Status) (r : Word) : (s.respond st r).b = s.b := rfl
@[simp] theorem State.respond_reg (s : State) (st : Status) (r : Word) : (s.respond st r).reg = s.reg := rfl
@[simp] theorem State.respond_port (s : State) (st : Status) (r : Word) : (s.respond st r).port = s.port := rfl
@[simp] theorem State.respond_responses (s : State) (st : Status) (r : Word) :
    (s.respond st r).responses = s.responses ++ [{ status := st, result := r }] := rfl
@[simp] theorem State.respond_m (s : State) (st : Status) (r : Word) : (s.respond st r).m = s.m := rfl
@[simp] theorem State.respond_regVal (s : State) (st : Status) (r : Word) (j : Nat) :
    (s.respond st r).regVal j = s.regVal j := rfl

/-! ## `takeReset` writes `cfg`, `b` and `reg` -/

@[simp] theorem takeReset_cfg (s : State) : (takeReset s).cfg = false := rfl
@[simp] theorem takeReset_b (s : State) : (takeReset s).b = State.reset.b := rfl
@[simp] theorem takeReset_reg (s : State) : (takeReset s).reg = State.reset.reg := rfl
@[simp] theorem takeReset_port (s : State) : (takeReset s).port = s.port := rfl
@[simp] theorem takeReset_responses (s : State) : (takeReset s).responses = s.responses := rfl

/-! ## `sendNext` writes `port` alone -/

@[simp] theorem State.sendNext_cfg (s : State) (w : CommandWord) : (s.sendNext w).cfg = s.cfg := rfl
@[simp] theorem State.sendNext_b (s : State) (w : CommandWord) : (s.sendNext w).b = s.b := rfl
@[simp] theorem State.sendNext_reg (s : State) (w : CommandWord) : (s.sendNext w).reg = s.reg := rfl
@[simp] theorem State.sendNext_port (s : State) (w : CommandWord) : (s.sendNext w).port = .command w :: s.port := rfl
@[simp] theorem State.sendNext_responses (s : State) (w : CommandWord) : (s.sendNext w).responses = s.responses := rfl

/-! ## `m`, `index` and `rank` read `B` alone -/

theorem State.m_of_b {s t : State} (h : t.b = s.b) : t.m = s.m := by simp [State.m, h]
theorem State.index_of_b {s t : State} (h : t.b = s.b) (v : Word) : t.index v = s.index v := by
  simp [State.index, State.m, h]
theorem State.rank_of_b {s t : State} (h : t.b = s.b) (v : Word) : t.rank v = s.rank v := by
  simp [State.rank, h]

end Sys2Proof.Machine
end

