-- ==== Sys2Proof/Laws/Operands.lean ====
section
/-! SUPPORT. The bit counters, the index mux and the rank path: what each computes. -/

namespace Sys2Proof.Machine

theorem zext64_toNat {n : Nat} (h : n < 2 ^ 64) : (zext64 n).toNat = n := by
  simp only [zext64, BitVec.toNat_ofNat]
  exact Nat.mod_eq_of_lt h

/-! ## The leading-zero counter -/

theorem clzBelow_le (x : Word) (n : Nat) : clzBelow x n ≤ n := by
  induction n with
  | zero => exact Nat.le_refl _
  | succ n ih => rw [clzBelow]; split <;> omega

theorem clz64_le (x : Word) : clz64 x ≤ 64 := clzBelow_le x 64

/-- With no 1 bit below `n`, the loop counts all `n`. -/
theorem clzBelow_of_none {x : Word} {n : Nat} (h : ∀ i < n, x.getLsbD i = false) : clzBelow x n = n := by
  induction n with
  | zero => rfl
  | succ n ih =>
    rw [clzBelow, h n (Nat.lt_succ_self n), ih fun i hi => h i (by omega)]
    simp

/-- With the highest 1 bit below `n` at `q`, the loop counts the bits above it. -/
theorem clzBelow_of_top {x : Word} {n q : Nat} (hq : q < n) (h1 : x.getLsbD q = true)
    (h0 : ∀ i, q < i → i < n → x.getLsbD i = false) : clzBelow x n = n - 1 - q := by
  induction n with
  | zero => omega
  | succ n ih =>
    rw [clzBelow]
    by_cases hqn : q = n
    · subst hqn; simp [h1]
    · rw [h0 n (by omega) (by omega), ih (by omega) fun i hi hin => h0 i hi (by omega)]
      simp only [Bool.false_eq_true, if_false]
      omega

/-- `clz64(x) = 63 - (position of the highest 1 bit)`. -/
theorem clz64_of_top {x : Word} {q : Nat} (hq : q < 64) (h1 : x.getLsbD q = true)
    (h0 : ∀ i, q < i → i < 64 → x.getLsbD i = false) : clz64 x = 63 - q := by
  rw [clz64, clzBelow_of_top hq h1 h0]

theorem clz64_zero : clz64 0#64 = 64 := clzBelow_of_none (by simp)

/-- Bits above the count are all 0 where the loop found that many zeros. -/
theorem le_clzBelow {x : Word} {n k : Nat} (hk : k ≤ n) (h : ∀ i, n - k ≤ i → i < n → x.getLsbD i = false) :
    k ≤ clzBelow x n := by
  induction n generalizing k with
  | zero => omega
  | succ n ih =>
    cases k with
    | zero => exact Nat.zero_le _
    | succ k =>
      rw [clzBelow, h n (by omega) (by omega)]
      have := ih (k := k) (by omega) fun i hi hin => h i (by omega) (by omega)
      simp only [Bool.false_eq_true, if_false]
      omega

/-- The top `b` bits of `value >> b` are structurally 0 (41_update.md R91). -/
theorem le_clz64_shift (v : Word) {b : Nat} (hb : b ≤ 64) : b ≤ clz64 (v >>> b) := by
  refine le_clzBelow hb fun i hi _ => ?_
  rw [BitVec.getLsbD_ushiftRight]
  exact BitVec.getLsbD_of_ge _ _ (by omega)

/-- The counter after the shifter: the highest 1 bit at `q ≥ b` is at `q - b` (41_update.md R91). -/
theorem clz64_shift_of_top {v : Word} {b q : Nat} (hq : q < 64) (hb : b ≤ q) (h1 : v.getLsbD q = true)
    (h0 : ∀ i, q < i → i < 64 → v.getLsbD i = false) : clz64 (v >>> b) = 63 - (q - b) := by
  refine clz64_of_top (by omega) ?_ fun i _ _ => ?_
  · rw [BitVec.getLsbD_ushiftRight, Nat.add_sub_cancel' hb, h1]
  · rw [BitVec.getLsbD_ushiftRight]
    by_cases h : b + i < 64
    · exact h0 _ (by omega) h
    · exact BitVec.getLsbD_of_ge _ _ (by omega)

/-! ## The population counter -/

/-- The counter counts the positions of the 1 bits. -/
theorem onesBelow_eq_card (x : Word) (n : Nat) :
    onesBelow x n = ((Finset.range n).filter fun i => x.getLsbD i = true).card := by
  induction n with
  | zero => rfl
  | succ n ih =>
    rw [onesBelow, ih, Finset.range_add_one, Finset.filter_insert]
    split <;> simp

theorem onesBelow_le (x : Word) (n : Nat) : onesBelow x n ≤ n := by
  induction n with
  | zero => exact Nat.le_refl _
  | succ n ih => rw [onesBelow]; split <;> omega

/-! ## The index mux and the rank path -/

theorem State.m_pos (s : State) : 0 < s.m := Nat.two_pow_pos _

theorem State.b_lt (s : State) : s.b.toNat < 32 := s.b.isLt

theorem State.m_le_mMax {s : State} (h : s.b.toNat ≤ Config.bMax) : s.m ≤ Config.mMax := by
  simpa [State.m, Config.mMax, Config.bMax] using Nat.pow_le_pow_right (n := 2) (by decide) h

theorem State.m_lt (s : State) : s.m < 2 ^ 32 := by
  simpa [State.m] using Nat.pow_lt_pow_right (a := 2) (by decide) s.b_lt

/-- The index mux can never select a hidden entry (41_update.md R90). -/
theorem State.index_lt (s : State) (v : Word) : s.index v < s.m := Nat.mod_lt _ s.m_pos

/-- The rank is at least 1 and at most `65 - B` (41_update.md R91). -/
theorem State.rank_bounds (s : State) (v : Word) : 1 ≤ s.rank v ∧ s.rank v ≤ 65 - s.b.toNat := by
  have h1 := le_clz64_shift v (b := s.b.toNat) (by have := s.b_lt; omega)
  have h2 := clz64_le (v >>> s.b.toNat)
  rw [State.rank]
  omega

/-- A rank fits a register once `B` is at least 2. -/
theorem State.rank_toReg {s : State} (h : 2 ≤ s.b.toNat) (v : Word) :
    (BitVec.ofNat 6 (s.rank v)).toNat = s.rank v := by
  have := (s.rank_bounds v).2
  rw [BitVec.toNat_ofNat]
  exact Nat.mod_eq_of_lt (by omega)

theorem State.rank_toReg_ne {s : State} (h : 2 ≤ s.b.toNat) (v : Word) : BitVec.ofNat 6 (s.rank v) ≠ 0#6 := by
  intro hz
  have h1 := (s.rank_bounds v).1
  have h2 := s.rank_toReg h v
  rw [hz] at h2
  simp at h2
  omega

/-- INIT's check in numbers (30_encoding.md R66). -/
theorem legalPrecision_iff (d : Word) : legalPrecision d = true ↔ 4 ≤ d.toNat ∧ d.toNat ≤ 16 := by
  simp only [legalPrecision, Bool.and_eq_true, decide_eq_true_eq]
  exact Iff.rfl

/-- A legal precision is stored whole. -/
theorem precisionBits_toNat {d : Word} (h : d.toNat ≤ 16) : (precisionBits d).toNat = d.toNat := by
  simp only [precisionBits, BitVec.extractLsb'_toNat, Nat.shiftRight_zero]
  exact Nat.mod_eq_of_lt (by omega)

end Sys2Proof.Machine
end

