-- ==== Sys2Proof/Laws/RegFile.lean ====
section
/-! SUPPORT. The register file: read after write, the canonical form is kept, equal readings are equal files, and what
the counting loop counts. -/

namespace Sys2Proof.Machine

/-! ## Reading -/

@[simp] theorem RegFile.read_nil (j : Nat) : RegFile.read [] j = 0#6 := rfl

@[simp] theorem RegFile.read_cleared (j : Nat) : RegFile.cleared.read j = 0#6 := rfl

theorem RegFile.read_cons (k : Nat) (v : Reg) (f : RegFile) (j : Nat) :
    RegFile.read ((k, v) :: f) j = if k = j then v else RegFile.read f j := rfl

/-- An index that is not listed reads 0. -/
theorem RegFile.read_of_forall_ne {f : RegFile} {j : Nat} (h : ∀ c ∈ f, c.1 ≠ j) : f.read j = 0#6 := by
  induction f with
  | nil => rfl
  | cons c f ih =>
    obtain ⟨k, v⟩ := c
    rw [RegFile.read_cons, if_neg (h (k, v) (by simp)), ih fun c hc => h c (by simp [hc])]

/-- What reads other than 0 is listed. -/
theorem RegFile.mem_of_read_ne {f : RegFile} {j : Nat} (h : f.read j ≠ 0#6) : (j, f.read j) ∈ f := by
  induction f with
  | nil => exact absurd rfl h
  | cons c f ih =>
    obtain ⟨k, v⟩ := c
    rw [RegFile.read_cons] at h ⊢
    split at h
    · next hk => subst hk; simp
    · next hk => simpa [hk] using Or.inr (ih h)

/-! ## Writing -/

theorem RegFile.read_write_other (f : RegFile) {i j : Nat} (v : Reg) (h : i ≠ j) :
    (f.write j v).read i = f.read i := by
  induction f with
  | nil => by_cases hv : v = 0#6 <;> simp [RegFile.write, RegFile.read, hv, Ne.symm h]
  | cons c f ih =>
    obtain ⟨k, u⟩ := c
    by_cases h1 : j < k
    · by_cases hv : v = 0#6 <;> simp [RegFile.write, RegFile.read, h1, hv, Ne.symm h]
    · by_cases h2 : j = k
      · subst h2
        by_cases hv : v = 0#6 <;> simp [RegFile.write, RegFile.read, hv, Ne.symm h]
      · simp [RegFile.write, RegFile.read, h1, h2, ih]

theorem RegFile.read_write_same (f : RegFile) (j : Nat) {v : Reg} (h : v ≠ 0#6) : (f.write j v).read j = v := by
  induction f with
  | nil => simp [RegFile.write, RegFile.read, h]
  | cons c f ih =>
    obtain ⟨k, u⟩ := c
    by_cases h1 : j < k
    · simp [RegFile.write, RegFile.read, h1, h]
    · by_cases h2 : j = k
      · simp [RegFile.write, RegFile.read, h2, h]
      · simp [RegFile.write, RegFile.read, h1, h2, ih, Ne.symm h2]

/-- A listed entry after a write was listed before or is the entry written. -/
theorem RegFile.mem_write {f : RegFile} {j : Nat} {v : Reg} {c : Nat × Reg} (h : c ∈ f.write j v) :
    c ∈ f ∨ (c = (j, v) ∧ v ≠ 0#6) := by
  induction f with
  | nil =>
    by_cases hv : v = 0#6 <;> simp_all [RegFile.write]
  | cons d f ih =>
    obtain ⟨k, u⟩ := d
    by_cases h1 : j < k
    · by_cases hv : v = 0#6 <;> simp_all [RegFile.write]
      tauto
    · by_cases h2 : j = k
      · by_cases hv : v = 0#6 <;> simp_all [RegFile.write]
        tauto
      · simp only [RegFile.write, if_neg h1, if_neg h2, List.mem_cons] at h ⊢
        rcases h with h | h
        · exact .inl (.inl h)
        · exact (ih h).imp .inr id

/-! ## The canonical form -/

theorem RegFile.cleared_wf : RegFile.wf RegFile.cleared := by simp [RegFile.wf, RegFile.cleared]

/-- Every write keeps the canonical form. -/
theorem RegFile.write_wf {f : RegFile} {j : Nat} {v : Reg} (hf : f.wf) (hj : j < Config.mMax) : (f.write j v).wf := by
  refine ⟨?_, fun c hc => ?_⟩
  · obtain ⟨hp, -⟩ := hf
    induction f with
    | nil => by_cases hv : v = 0#6 <;> simp [RegFile.write, hv]
    | cons d f ih =>
      obtain ⟨k, u⟩ := d
      have hk := (List.pairwise_cons.mp hp).1
      have hrest := (List.pairwise_cons.mp hp).2
      by_cases h1 : j < k
      · by_cases hv : v = 0#6
        · simpa [RegFile.write, h1, hv] using hp
        · simp only [RegFile.write, if_pos h1, if_neg hv]
          refine List.pairwise_cons.mpr ⟨fun c hc => ?_, hp⟩
          rcases List.mem_cons.mp hc with rfl | hc
          · exact h1
          · exact Nat.lt_trans h1 (hk c hc)
      · by_cases h2 : j = k
        · subst h2
          by_cases hv : v = 0#6
          · simpa [RegFile.write, hv] using hrest
          · simp only [RegFile.write, lt_irrefl, if_false, if_true, if_neg hv]
            exact List.pairwise_cons.mpr ⟨hk, hrest⟩
        · simp only [RegFile.write, if_neg h1, if_neg h2]
          refine List.pairwise_cons.mpr ⟨fun c hc => ?_, ih hrest⟩
          rcases RegFile.mem_write hc with hc | ⟨rfl, -⟩
          · exact hk c hc
          · exact Nat.lt_of_le_of_ne (Nat.le_of_not_lt h1) (Ne.symm h2)
  · rcases RegFile.mem_write hc with hc | ⟨rfl, hv⟩
    · exact hf.2 c hc
    · exact ⟨hj, hv⟩

/-- In a canonical file a listed entry reads as listed. -/
theorem RegFile.read_of_mem {f : RegFile} (hf : f.wf) {j : Nat} {v : Reg} (h : (j, v) ∈ f) : f.read j = v := by
  obtain ⟨hp, -⟩ := hf
  induction f with
  | nil => cases h
  | cons d f ih =>
    obtain ⟨k, u⟩ := d
    have hk := (List.pairwise_cons.mp hp).1
    rcases List.mem_cons.mp h with h | h
    · cases h; simp [RegFile.read]
    · have : k ≠ j := Nat.ne_of_lt (hk _ h)
      rw [RegFile.read_cons, if_neg this]
      exact ih h (List.pairwise_cons.mp hp).2

/-- Canonical files with equal readings are equal data. -/
theorem RegFile.eq_of_read_eq {f g : RegFile} (hf : f.wf) (hg : g.wf) (h : ∀ j, f.read j = g.read j) : f = g := by
  have sub : ∀ {a b : RegFile}, a.wf → b.wf → (∀ j, a.read j = b.read j) → ∀ c ∈ a, c ∈ b := by
    intro a b ha hb hab c hc
    obtain ⟨j, v⟩ := c
    have hv := RegFile.read_of_mem ha hc
    have hne : b.read j ≠ 0#6 := by rw [← hab j, hv]; exact (ha.2 _ hc).2
    have := RegFile.mem_of_read_ne hne
    rwa [← hab j, hv] at this
  have nodup : ∀ {a : RegFile}, a.wf → a.Nodup := fun ha =>
    ha.1.imp fun {x y} (hxy : x.1 < y.1) (he : x = y) => by simp [he] at hxy
  have perm : f.Perm g :=
    (List.perm_ext_iff_of_nodup (nodup hf) (nodup hg)).mpr fun c => ⟨sub hf hg h c, sub hg hf (fun j => (h j).symm) c⟩
  exact perm.eq_of_pairwise (fun x y _ _ hxy hyx => absurd (Nat.lt_trans hxy hyx) (Nat.lt_irrefl _)) hf.1 hg.1

/-! ## Counting -/

/-- The counting loop counts the indexes below the bound whose entry passes the test. -/
theorem RegFile.countBelow_eq_card (f : RegFile) (p : Reg → Bool) (n : Nat) :
    f.countBelow p n = ((Finset.range n).filter fun j => p (f.read j) = true).card := by
  induction n with
  | zero => rfl
  | succ n ih =>
    rw [RegFile.countBelow, ih, Finset.range_add_one, Finset.filter_insert]
    split <;> simp

theorem RegFile.countBelow_le (f : RegFile) (p : Reg → Bool) (n : Nat) : f.countBelow p n ≤ n := by
  induction n with
  | zero => exact Nat.le_refl _
  | succ n ih =>
    rw [RegFile.countBelow]
    split <;> omega

/-- A handier count for a short canonical file: of `n` entries, all but the listed ones hold 0. -/
theorem RegFile.countBelow_zero_listed {f : RegFile} (hf : f.wf) {n : Nat} (hn : ∀ c ∈ f, c.1 < n) :
    f.countBelow isZeroReg n = n - f.length := by
  have listed : ((Finset.range n).filter fun j => ¬ isZeroReg (f.read j) = true) = (f.map Prod.fst).toFinset := by
    ext j
    simp only [Finset.mem_filter, Finset.mem_range, isZeroReg, beq_iff_eq, List.mem_toFinset, List.mem_map]
    refine ⟨fun ⟨_, h⟩ => ⟨_, RegFile.mem_of_read_ne h, rfl⟩, ?_⟩
    rintro ⟨⟨k, v⟩, hc, rfl⟩
    exact ⟨hn _ hc, by rw [RegFile.read_of_mem hf hc]; exact (hf.2 _ hc).2⟩
  have nodup : (f.map Prod.fst).Nodup := by
    refine List.Pairwise.map _ ?_ hf.1
    exact fun x y hxy => Nat.ne_of_lt hxy
  have split := Finset.card_filter_add_card_filter_not (s := Finset.range n) (fun j => isZeroReg (f.read j) = true)
  rw [listed, List.toFinset_card_of_nodup nodup, List.length_map, Finset.card_range] at split
  rw [RegFile.countBelow_eq_card]
  omega

end Sys2Proof.Machine
end

