-- ==== Sys2Proof/Laws/Ops.lean ====
section
/-! SUPPORT. What each shared operation can answer, said once: if it answers a next state, then one of the named cases
holds. Proofs cite these and do not unfold the operations. -/

namespace Sys2Proof.Machine

/-- An answer is a next state whose block, port and responses are as the given response leaves them. -/
theorem answerOk_next {s t : State} {r : Word} (h : answerOk s r = .next t) : t = s.respond .ok r := by
  simpa [answerOk] using h.symm

theorem raiseError_next {s t : State} {e : Status} (h : raiseError s e = .next t) : t = s.respond e 0#64 := by
  simpa [raiseError] using h.symm

theorem requireConfigured_next {s t : State} {go : Answer} (h : requireConfigured s go = .next t) :
    (s.cfg = true ∧ go = .next t) ∨ (s.cfg = false ∧ t = s.respond .errNotConfigured 0#64) := by
  rw [requireConfigured] at h
  split at h
  · next hc => exact .inl ⟨hc, h⟩
  · next hc => exact .inr ⟨by simpa using hc, raiseError_next h⟩

theorem requireUnconfigured_next {s t : State} {go : Answer} (h : requireUnconfigured s go = .next t) :
    (s.cfg = false ∧ go = .next t) ∨ (s.cfg = true ∧ t = s.respond .errAlreadyConfigured 0#64) := by
  rw [requireUnconfigured] at h
  split at h
  · next hc => exact .inr ⟨hc, raiseError_next h⟩
  · next hc => exact .inl ⟨by simpa using hc, h⟩

theorem requirePrecision_next {s t : State} {d : Word} {go : Answer} (h : requirePrecision s d go = .next t) :
    ((4 ≤ d.toNat ∧ d.toNat ≤ 16) ∧ go = .next t) ∨
      (¬ (4 ≤ d.toNat ∧ d.toNat ≤ 16) ∧ t = s.respond .errInvalidPrecision 0#64) := by
  rw [requirePrecision] at h
  split at h
  · next hc => exact .inl ⟨(legalPrecision_iff d).mp hc, h⟩
  · next hc => exact .inr ⟨fun hd => hc ((legalPrecision_iff d).mpr hd), raiseError_next h⟩

theorem requireIndex_next {s t : State} {j : Word} {go : Answer} (h : requireIndex s j go = .next t) :
    (j.toNat < s.m ∧ go = .next t) ∨ (s.m ≤ j.toNat ∧ t = s.respond .errIndexRange 0#64) := by
  rw [requireIndex] at h
  split at h
  · next hc => exact .inl ⟨hc, h⟩
  · next hc => exact .inr ⟨Nat.le_of_not_lt hc, raiseError_next h⟩

theorem withEntry_next {s t : State} {j : Nat} {use : Reg → Answer} (h : withEntry s j use = .next t) :
    j < Config.mMax ∧ use (s.reg.read j) = .next t := by
  rw [withEntry] at h
  split at h
  · next hc => exact ⟨hc, h⟩
  · cases h

theorem withEntriesBelow_next {t : State} {n : Nat} {use : Answer} (h : withEntriesBelow n use = .next t) :
    n ≤ Config.mMax ∧ use = .next t := by
  rw [withEntriesBelow] at h
  split at h
  · next hc => exact ⟨hc, h⟩
  · cases h

/-! ## Registers as numbers -/

/-- `B` is a legal precision in every legal configured state (10_state.md R22). -/
theorem State.Legal.precision {s : State} (hl : s.Legal) (hc : s.cfg = true) : 4 ≤ s.b.toNat ∧ s.b.toNat ≤ 16 :=
  ⟨(hl.2 hc).1, (hl.2 hc).2.1⟩

theorem zext64_reg (r : Reg) : zext64 r.toNat = r.setWidth 64 := by
  have := r.isLt
  refine BitVec.eq_of_toNat_eq ?_
  rw [zext64_toNat (by omega), BitVec.toNat_setWidth, Nat.mod_eq_of_lt (by omega)]

theorem isZeroReg_iff (s : State) (j : Nat) : isZeroReg (s.reg.read j) = true ↔ s.regVal j = 0 := by
  simp only [isZeroReg, State.regVal, beq_iff_eq]
  exact ⟨fun h => by simp [h], fun h => BitVec.eq_of_toNat_eq (by simpa using h)⟩

/-- HISTBIN's test is on the whole zero-extended value: no `k` aliases (42_readout.md R102). -/
theorem holdsValue_iff (s : State) (k : Word) (j : Nat) : holdsValue k (s.reg.read j) = true ↔ s.regVal j = k.toNat := by
  have := (s.reg.read j).isLt
  simp only [holdsValue, State.regVal, beq_iff_eq]
  refine ⟨fun h => by rw [← h, zext64_toNat (by omega)], fun h => BitVec.eq_of_toNat_eq ?_⟩
  rw [zext64_toNat (by omega), h]

/-- A register after the selected one is given its rank. -/
theorem regVal_write_rank {s : State} (h : 2 ≤ s.b.toNat) (v : Word) (j : Nat) :
    ((s.reg.write (s.index v) (BitVec.ofNat 6 (s.rank v))).read j).toNat =
      if j = s.index v then s.rank v else s.regVal j := by
  split
  · next hj => rw [hj, RegFile.read_write_same _ _ (State.rank_toReg_ne h v), State.rank_toReg h]
  · next hj => rw [RegFile.read_write_other _ _ hj]; rfl

/-! ## What a command can do -/

/-- The two ways a command changes the block (10_state.md R31): INIT constructs, UPDATE writes one register. -/
inductive Change (s : State) : Instr → State → Prop where
  /-- Nothing of the block changes; one response. -/
  | answer (i : Instr) (st : Status) (r : Word) (err : st ≠ .ok → r = 0#64) : Change s i (s.respond st r)
  /-- A successful INIT. -/
  | construct (d : Word) (hc : s.cfg = false) (hd : 4 ≤ d.toNat ∧ d.toNat ≤ 16) :
      Change s (.init d)
        (State.respond { s with cfg := true, b := precisionBits d, reg := RegFile.cleared } .ok 0#64)
  /-- An UPDATE with a strictly larger rank. -/
  | write (v : Word) (hc : s.cfg = true) (hj : s.index v < Config.mMax) (hr : s.regVal (s.index v) < s.rank v) :
      Change s (.update v)
        (State.respond { s with reg := s.reg.write (s.index v) (BitVec.ofNat 6 (s.rank v)) } .ok 0#64)

/-- Everything a command can do when it answers a next state. -/
theorem exec_cases {i : Instr} {s t : State} (h : exec i s = .next t) : Change s i t := by
  have fails : ∀ {e}, t = s.respond e 0#64 → Change s i t := fun h => h ▸ .answer i _ _ fun _ => rfl
  have answers : ∀ {r}, answerOk s r = .next t → Change s i t :=
    fun h => answerOk_next h ▸ .answer i _ _ fun hne => absurd rfl hne
  cases i with
  | nop d => exact answers h
  | clz64 x => exact answers h
  | popcnt64 x => exact answers h
  | getb d => rcases requireConfigured_next h with ⟨-, h⟩ | ⟨-, h⟩ <;> [exact answers h; exact fails h]
  | idx v => rcases requireConfigured_next h with ⟨-, h⟩ | ⟨-, h⟩ <;> [exact answers h; exact fails h]
  | rank v => rcases requireConfigured_next h with ⟨-, h⟩ | ⟨-, h⟩ <;> [exact answers h; exact fails h]
  | readreg j =>
    rcases requireConfigured_next h with ⟨-, h⟩ | ⟨-, h⟩
    · rcases requireIndex_next h with ⟨-, h⟩ | ⟨-, h⟩
      · exact answers (withEntry_next h).2
      · exact fails h
    · exact fails h
  | numzeros d =>
    rcases requireConfigured_next h with ⟨-, h⟩ | ⟨-, h⟩ <;> [exact answers (withEntriesBelow_next h).2; exact fails h]
  | histbin k =>
    rcases requireConfigured_next h with ⟨-, h⟩ | ⟨-, h⟩ <;> [exact answers (withEntriesBelow_next h).2; exact fails h]
  | init d =>
    rcases requireUnconfigured_next h with ⟨hc, h⟩ | ⟨-, h⟩
    · rcases requirePrecision_next h with ⟨hd, h⟩ | ⟨-, h⟩
      · exact answerOk_next h ▸ .construct d hc hd
      · exact fails h
    · exact fails h
  | update v =>
    rcases requireConfigured_next h with ⟨hc, h⟩ | ⟨-, h⟩
    · obtain ⟨hj, h⟩ := withEntry_next h
      by_cases hr : (s.reg.read (s.index v)).toNat < s.rank v
      · rw [if_pos hr] at h
        exact answerOk_next h ▸ .write v hc hj hr
      · rw [if_neg hr] at h
        exact answers h
    · exact fails h

end Sys2Proof.Machine
end

