-- ==== Sys2Proof/Laws/PerInstr.lean ====
section
/-! SUPPORT. Statements made once per constructor of `Instr`. -/

namespace Sys2Proof.Laws

open Sys2Proof

/-- The fields of a command's word are its opcode and its DATA, and its opcode is not reserved (30_encoding.md R60, R64). -/
def Encoding.Statement (i : Instr) : Prop :=
  fieldsOf (encode i) = { op := opcodeOf i, data := operandOf i } ∧
    Command.WellFormed { op := opcodeOf i, data := operandOf i }

/-- The fields of a word put together are the fields (30_encoding.md R60). -/
theorem fieldsOf_wordOf (c : Command) : fieldsOf (wordOf c) = c := by
  obtain ⟨op, data⟩ := c
  simp only [fieldsOf, wordOf, Command.mk.injEq]
  constructor
  · apply BitVec.eq_of_getLsbD_eq
    intro i hi
    simp only [BitVec.getLsbD_extractLsb', BitVec.getLsbD_append]
    simp [hi]
  · apply BitVec.eq_of_getLsbD_eq
    intro i hi
    simp only [BitVec.getLsbD_extractLsb', BitVec.getLsbD_append]
    simp [hi]

/-- A word is its fields put together (30_encoding.md R60). -/
theorem wordOf_fieldsOf (w : CommandWord) : wordOf (fieldsOf w) = w := by
  apply BitVec.eq_of_getLsbD_eq
  intro i hi
  simp only [wordOf, fieldsOf, BitVec.getLsbD_append, BitVec.getLsbD_extractLsb']
  by_cases h : i < 64
  · simp [h]
  · simp only [h, decide_false, Bool.false_and, if_false]
    have : i - 64 < 4 := by omega
    simp [this, show 64 + (i - 64) = i by omega]

/-- No command has a reserved opcode (30_encoding.md R64). -/
theorem opcodeOf_le (i : Instr) : (opcodeOf i).toNat ≤ 10 := by
  cases i <;> simp [opcodeOf]

theorem Encoding.nop (data : Word) : Encoding.Statement (.nop data) := ⟨fieldsOf_wordOf _, opcodeOf_le _⟩
theorem Encoding.init (b : Word) : Encoding.Statement (.init b) := ⟨fieldsOf_wordOf _, opcodeOf_le _⟩
theorem Encoding.update (value : Word) : Encoding.Statement (.update value) := ⟨fieldsOf_wordOf _, opcodeOf_le _⟩
theorem Encoding.readreg (j : Word) : Encoding.Statement (.readreg j) := ⟨fieldsOf_wordOf _, opcodeOf_le _⟩
theorem Encoding.numzeros (data : Word) : Encoding.Statement (.numzeros data) := ⟨fieldsOf_wordOf _, opcodeOf_le _⟩
theorem Encoding.histbin (k : Word) : Encoding.Statement (.histbin k) := ⟨fieldsOf_wordOf _, opcodeOf_le _⟩
theorem Encoding.getb (data : Word) : Encoding.Statement (.getb data) := ⟨fieldsOf_wordOf _, opcodeOf_le _⟩
theorem Encoding.clz64 (x : Word) : Encoding.Statement (.clz64 x) := ⟨fieldsOf_wordOf _, opcodeOf_le _⟩
theorem Encoding.popcnt64 (x : Word) : Encoding.Statement (.popcnt64 x) := ⟨fieldsOf_wordOf _, opcodeOf_le _⟩
theorem Encoding.idx (value : Word) : Encoding.Statement (.idx value) := ⟨fieldsOf_wordOf _, opcodeOf_le _⟩
theorem Encoding.rank (value : Word) : Encoding.Statement (.rank value) := ⟨fieldsOf_wordOf _, opcodeOf_le _⟩

end Sys2Proof.Laws
end

