-- ==== Sys2Proof/Laws/Step.lean ====
section
/-! SUPPORT. What a step does on each move of the host, and an induction over runs packaged once. -/

namespace Sys2Proof.Machine

theorem step_idle {s : State} (h : s.port = []) : step s = .next s := by
  simp [step, State.takeMove, h, idle]

theorem step_reset {s : State} {rest : List HostEvent} (h : s.port = .reset :: rest) :
    step s = .next (takeReset { s with port := rest }) := by
  simp [step, State.takeMove, h]

theorem step_command {s : State} {w : CommandWord} {rest : List HostEvent} {i : Instr}
    (h : s.port = .command w :: rest) (hd : decode w = .ok i) : step s = exec i { s with port := rest } := by
  simp [step, State.takeMove, h, hd]

theorem step_reserved {s : State} {w : CommandWord} {rest : List HostEvent} {e : DecodeError}
    (h : s.port = .command w :: rest) (hd : decode w = .error e) :
    step s = .next (State.respond { s with port := rest } .errIllegal 0#64) := by
  simp [step, State.takeMove, h, hd, illegalCommand, raiseError]

/-- Everything a step can do when it answers a next state. -/
theorem step_cases {s t : State} (h : step s = .next t) :
    (s.port = [] ∧ t = s) ∨
    (∃ rest, s.port = .reset :: rest ∧ t = takeReset { s with port := rest }) ∨
    (∃ w rest e, s.port = .command w :: rest ∧ decode w = .error e ∧
      t = State.respond { s with port := rest } .errIllegal 0#64) ∨
    (∃ w rest i, s.port = .command w :: rest ∧ decode w = .ok i ∧ Change { s with port := rest } i t) := by
  rcases hp : s.port with _ | ⟨_ | _, rest⟩
  · rw [step_idle hp] at h
    exact .inl ⟨rfl, by simpa using h.symm⟩
  · next w =>
    rcases hd : decode w with e | i
    · rw [step_reserved hp hd] at h
      exact .inr (.inr (.inl ⟨w, rest, e, rfl, hd, by simpa using h.symm⟩))
    · rw [step_command hp hd] at h
      exact .inr (.inr (.inr ⟨w, rest, i, rfl, hd, exec_cases h⟩))
  · rw [step_reset hp] at h
    exact .inr (.inl ⟨rest, rfl, by simpa using h.symm⟩)

/-- A step takes at most the first move off the port. -/
theorem step_port {s t : State} (h : step s = .next t) : t.port = s.port.tail := by
  rcases step_cases h with ⟨hp, rfl⟩ | ⟨rest, hp, rfl⟩ | ⟨w, rest, e, hp, -, rfl⟩ | ⟨w, rest, i, hp, -, hch⟩
  · simp [hp]
  · simp [hp]
  · simp [hp]
  · cases hch <;> simp [hp]

/-- With no reset among the first `n + 1` moves, the next move is no reset and none is among the `n` after it. -/
theorem no_reset_after_step {n : Nat} {s t : State} (h : step s = .next t)
    (hr : HostEvent.reset ∉ s.port.take (n + 1)) :
    (∀ rest, s.port ≠ .reset :: rest) ∧ HostEvent.reset ∉ t.port.take n := by
  rw [step_port h]
  cases hp : s.port with
  | nil => simp
  | cons e rest =>
    simp only [hp, List.take_succ_cons, List.mem_cons, not_or] at hr
    exact ⟨fun _ he => hr.1 (List.cons.inj he).1.symm, hr.2⟩

/-- A run starts with its first step. -/
theorem run_of_step {n : Nat} {s t : State} (h : step s = .next t) : core.run (n + 1) s = core.run n t := by
  simp only [Host.Core.run]
  rw [show core.step s = .next t from h]

theorem run_succ_next {n : Nat} {s t : State} (h : core.run (n + 1) s = .next t) :
    ∃ u, step s = .next u ∧ core.run n u = .next t := by
  simp only [Host.Core.run] at h
  split at h
  · next u hu => exact ⟨u, hu, h⟩
  · cases h
  · cases h

/-- A run that answers a next state keeps what every step keeps. -/
theorem run_induction {P : State → Prop} (keep : ∀ {s t}, step s = .next t → P s → P t) {n : Nat} {s t : State}
    (h : core.run n s = .next t) (hs : P s) : P t := by
  induction n generalizing s with
  | zero => cases h; exact hs
  | succ n ih =>
    obtain ⟨u, hu, h⟩ := run_succ_next h
    exact ih h (keep hu hs)

end Sys2Proof.Machine
end

