-- ==== Sys2Proof/Tests/Slice0.lean ====
section
/-! SUPPORT. Tests: each expected value is from spec/ (95_test_vectors.md and the examples of the rules), one step on a small
state; and for each statement with hypotheses a witness that meets them all. -/

namespace Sys2Proof.Tests

open Sys2Proof Machine

/-! ## Small states and what a test looks at -/

/-- A configured block. -/
def configured (b : BitVec 5) (reg : RegFile) : State :=
  { cfg := true, b := b, reg := reg, port := [], responses := [] }

/-- A state with the given moves to come. -/
def withPort (s : State) (moves : List HostEvent) : State := { s with port := moves }

/-- The last response of an answer. -/
def said : Answer → Option Response
  | .next t => t.responses.getLast?
  | .fault _ => none
  | .refused _ => none

/-- What an answer's next state holds. -/
def holds {α : Type} (look : State → α) : Answer → Option α
  | .next t => some (look t)
  | .fault _ => none
  | .refused _ => none

/-! ## Well-formedness: a reserved opcode is refused (30_encoding.md R65) -/

theorem test_reserved_B_ill_formed : ¬ Command.WellFormed { op := 0xB#4, data := 0#64 } := by decide
theorem test_reserved_F_ill_formed : ¬ Command.WellFormed { op := 0xF#4, data := 0#64 } := by decide
theorem test_rank_well_formed : Command.WellFormed { op := 0xA#4, data := 0#64 } := by decide

/-! ## Decoding: words written out from the encodings (30_encoding.md R60, R61, R64) -/

theorem test_decode_nop : decode 0x0FFFFFFFFFFFFFFFF#68 = .ok (.nop 0xFFFFFFFFFFFFFFFF#64) := by decide
theorem test_decode_init : decode 0x10000000000000004#68 = .ok (.init 4#64) := by decide
theorem test_decode_update : decode 0x20000000000000010#68 = .ok (.update 0x10#64) := by decide
theorem test_decode_readreg : decode 0x30000000000010000#68 = .ok (.readreg 0x10000#64) := by decide
theorem test_decode_numzeros : decode 0x40000000000000000#68 = .ok (.numzeros 0#64) := by decide
theorem test_decode_histbin : decode 0x5000000000000003C#68 = .ok (.histbin 60#64) := by decide
theorem test_decode_getb : decode 0x60000000000000000#68 = .ok (.getb 0#64) := by decide
theorem test_decode_clz64 : decode 0x70000000100000000#68 = .ok (.clz64 0x0000000100000000#64) := by decide
theorem test_decode_popcnt64 : decode 0x80123456789ABCDEF#68 = .ok (.popcnt64 0x0123456789ABCDEF#64) := by decide
theorem test_decode_idx : decode 0x94000000000000003#68 = .ok (.idx 0x4000000000000003#64) := by decide
theorem test_decode_rank : decode 0xA0000000000000010#68 = .ok (.rank 0x10#64) := by decide
theorem test_decode_reserved : decode 0xF0000000000001234#68 = .error (.reservedOpcode 0xF#4) := by decide
theorem test_decode_reserved_first : decode 0xB0000000000000000#68 = .error (.reservedOpcode 0xB#4) := by decide

/-- R61: `2:0000000000000010` is the number `0x20000000000000010`. -/
theorem test_encode_update : (encode (.update 0x10#64)).toNat = 0x20000000000000010 := by decide

/-- The same word numbered as the opcode table numbers it, in whole bytes. -/
theorem test_decode_table_word : decodeTableWord 72 0xA0000000000000010 = some (.rank 0x10#64) := by decide

/-! ## One step each -/

/-- 95_test_vectors.md 2.6: NOP at reset. -/
theorem test_nop : said (step (State.reset.withFetchWord 68 0x0FFFFFFFFFFFFFFFF)) = some ⟨.ok, 0#64⟩ := by decide

/-- 95_test_vectors.md 2.4: no masking of `INIT 0x14` to 4. -/
theorem test_init_no_masking : said (exec (.init 0x14#64) State.reset) = some ⟨.errInvalidPrecision, 0#64⟩ := by decide

/-- 40_config.md R81: the state check comes before the operand check. -/
theorem test_init_already : said (exec (.init 3#64) (configured 4#5 [])) = some ⟨.errAlreadyConfigured, 0#64⟩ := by decide

/-- 40_config.md R81: INIT 16 from old contents leaves B = 16 and every register 0. -/
theorem test_init_clears :
    holds (fun t => (t.cfg, t.b, t.reg)) (exec (.init 16#64) { State.reset with b := 7#5, reg := [(3, 5#6)] }) =
      some (true, 16#5, []) := by decide

/-- 95_test_vectors.md 2.4. -/
theorem test_getb : said (exec (.getb 5#64) (configured 10#5 [])) = some ⟨.ok, 10#64⟩ := by decide
theorem test_getb_unconfigured : said (exec (.getb 0#64) State.reset) = some ⟨.errNotConfigured, 0#64⟩ := by decide

/-- 95_test_vectors.md 2.3: 60 before, rank 61. -/
theorem test_update_writes :
    holds State.reg (exec (.update 0#64) (configured 4#5 [(0, 60#6)])) = some [(0, 61#6)] := by decide

/-- 95_test_vectors.md 2.3: 2 before, rank 1, not written. -/
theorem test_update_smaller :
    holds State.reg (exec (.update 0x8000000000000000#64) (configured 4#5 [(0, 2#6)])) = some [(0, 2#6)] := by decide

/-- 95_test_vectors.md P2 line 9: REG[15] from 1 to 61, REG[0] kept. -/
theorem test_update_other_register :
    holds State.reg (exec (.update 0xF#64) (configured 4#5 [(0, 2#6), (15, 1#6)])) = some [(0, 2#6), (15, 61#6)] := by decide

/-- 95_test_vectors.md 2.5. -/
theorem test_readreg_range : said (exec (.readreg 16#64) (configured 4#5 [])) = some ⟨.errIndexRange, 0#64⟩ := by decide

/-- 95_test_vectors.md P3 line 14. -/
theorem test_readreg_top : said (exec (.readreg 0xFFFF#64) (configured 16#5 [(65535, 49#6)])) = some ⟨.ok, 49#64⟩ := by decide

/-- 95_test_vectors.md P1 line 5. -/
theorem test_numzeros : said (exec (.numzeros 0#64) (configured 4#5 [(0, 60#6)])) = some ⟨.ok, 15#64⟩ := by decide

/-- 95_test_vectors.md P3 line 15, through the listed count. -/
theorem test_numzeros_largest :
    RegFile.countBelow [(65535, 49#6)] isZeroReg (configured 16#5 [(65535, 49#6)]).m = 65535 :=
  RegFile.countBelow_zero_listed (f := [(65535, 49#6)]) (by decide) (by decide)

/-- 95_test_vectors.md 2.5: one register holds 60. -/
theorem test_histbin : said (exec (.histbin 60#64) (configured 4#5 [(0, 60#6)])) = some ⟨.ok, 1#64⟩ := by decide

/-- 95_test_vectors.md 2.5: `0x100000000000003C` does not alias onto 60. -/
theorem test_histbin_no_aliasing :
    said (exec (.histbin 0x100000000000003C#64) (configured 4#5 [(0, 60#6)])) = some ⟨.ok, 0#64⟩ := by decide

/-- 95_test_vectors.md 2.1. -/
theorem test_clz64_zero : said (exec (.clz64 0#64) State.reset) = some ⟨.ok, 64#64⟩ := by decide
theorem test_clz64_middle : said (exec (.clz64 0x0000000100000000#64) State.reset) = some ⟨.ok, 31#64⟩ := by decide
theorem test_popcnt64 : said (exec (.popcnt64 0x0123456789ABCDEF#64) State.reset) = some ⟨.ok, 32#64⟩ := by decide
theorem test_popcnt64_all : said (exec (.popcnt64 0xFFFFFFFFFFFFFFFF#64) State.reset) = some ⟨.ok, 64#64⟩ := by decide

/-- 95_test_vectors.md 2.2. -/
theorem test_idx_10 : said (exec (.idx 0x00000000DEADBEEF#64) (configured 10#5 [])) = some ⟨.ok, 751#64⟩ := by decide
theorem test_idx_16 : said (exec (.idx 0xFFFFFFFFFFFFFFFF#64) (configured 16#5 [])) = some ⟨.ok, 65535#64⟩ := by decide
theorem test_rank_4 : said (exec (.rank 0x0000000000000010#64) (configured 4#5 [])) = some ⟨.ok, 60#64⟩ := by decide
theorem test_rank_16 : said (exec (.rank 0x000000000000FFFF#64) (configured 16#5 [])) = some ⟨.ok, 49#64⟩ := by decide

/-- 95_test_vectors.md 2.6: a reserved opcode. -/
theorem test_step_reserved :
    said (step (State.reset.withFetchWord 68 0xFFFFFFFFFFFFFFFFF)) = some ⟨.errIllegal, 0#64⟩ := by decide

/-- 70_reset_and_hazards.md R160: reset unconfigures and sends no response. -/
theorem test_step_reset :
    holds (fun t => (t.cfg, t.responses)) (step (withPort (configured 4#5 []) [.reset])) = some (false, []) := by decide

/-- The one fault: an index with no entry, in a state no run reaches. -/
theorem test_no_such_entry : holds State.cfg (exec (.readreg 65536#64) (configured 17#5 [])) = none := by decide

/-! ## Notation and the host side -/

/-- 30_encoding.md R69, R61. -/
theorem test_assemble_init : assemble ['I', 'N', 'I', 'T', ' ', '4'] = some 0x10000000000000004#68 := by decide
theorem test_assemble_update :
    assemble ['U', 'P', 'D', 'A', 'T', 'E', ' ', '0', 'x', '1', '0'] = some 0x20000000000000010#68 := by decide
theorem test_assemble_numzeros :
    assemble ['N', 'U', 'M', 'Z', 'E', 'R', 'O', 'S'] = some 0x40000000000000000#68 := by decide
theorem test_assemble_word :
    assemble ['.', 'w', 'o', 'r', 'd', ' ', 'F', ':', '0', '0', '0', '0', '0', '0', '0', '0', '0', '0', '0', '0', '1', '2', '3',
      '4'] = some 0xF0000000000001234#68 := by decide
theorem test_assemble_needs_operand : assemble ['I', 'N', 'I', 'T'] = none := by decide

/-- 30_encoding.md R70: the commands of `estimate` at precision 4. -/
theorem test_api_estimate : (ApiOp.estimate.commands 4).length = 17 := by decide

/-- 95_test_vectors.md S6: the raw estimate's registers after P1. -/
theorem test_results :
    results (configured 4#5 [(0, 60#6)]) [.readreg 0#64, .numzeros 0#64, .histbin 60#64] = some [60, 15, 1] := by decide

/-! ## Witnesses: every statement's hypotheses are met -/

/-- For ReadAfterUpdateSeesTheWrite, HistogramMassIsConserved, RawEstimateReadsEveryRegister, HarmonicSumIsPositive and
HistogramHoldsExactlyThePresentValues, whose hypotheses are a legal configured state; here at both bounds of `B`. -/
theorem witness_legal : (configured 4#5 [(0, 2#6), (15, 61#6)]).Legal ∧ (configured 4#5 [(0, 2#6), (15, 61#6)]).cfg = true := by
  decide

theorem witness_legal_largest : (configured 16#5 [(65535, 49#6)]).Legal ∧ (configured 16#5 [(65535, 49#6)]).cfg = true := by
  decide

theorem witness_InitConfiguresAndClears :
    (configured 4#5 []).cfg = true ∧ State.reset.cfg = false ∧
      ¬ (4 ≤ (3#64).toNat ∧ (3#64).toNat ≤ 16) ∧ ¬ (4 ≤ (17#64).toNat ∧ (17#64).toNat ≤ 16) ∧
      (4 ≤ (4#64).toNat ∧ (4#64).toNat ≤ 16) ∧ (4 ≤ (16#64).toNat ∧ (16#64).toNat ≤ 16) := by decide

theorem witness_GetbReturnsPrecision :
    State.reset.cfg = false ∧ (configured 16#5 []).cfg = true ∧ (configured 16#5 []).Legal := by decide

theorem witness_IdxReturnsLowBits : State.reset.cfg = false ∧ (configured 4#5 []).cfg = true := by decide

/-- Highest 1 bit at `B`, at 63, and none at or above `B`. -/
theorem witness_RankIsPositionOfFirstOne :
    State.reset.cfg = false ∧ (configured 4#5 []).cfg = true ∧
      ((0x1F#64).getLsbD 4 = true ∧ ∀ i < 64, 4 < i → (0x1F#64).getLsbD i = false) ∧
      ((0x8000000000000000#64).getLsbD 63 = true ∧ ∀ i < 64, 63 < i → (0x8000000000000000#64).getLsbD i = false) ∧
      (∀ i < 64, 4 ≤ i → (0xF#64).getLsbD i = false) := by decide

/-- A rank above, equal to and below the register, and another register. -/
theorem witness_UpdateTakesTheMaximum :
    State.reset.cfg = false ∧ (configured 4#5 [(0, 1#6)]).cfg = true ∧
      (4 ≤ (configured 4#5 []).b.toNat ∧ (configured 4#5 []).b.toNat ≤ 16) ∧
      (4 ≤ (configured 16#5 []).b.toNat ∧ (configured 16#5 []).b.toNat ≤ 16) ∧
      (configured 4#5 [(0, 1#6)]).rank 0x8000000000000000#64 ≤
        (configured 4#5 [(0, 1#6)]).regVal ((configured 4#5 [(0, 1#6)]).index 0x8000000000000000#64) ∧
      15 ≠ (configured 4#5 [(0, 1#6)]).index 0x8000000000000000#64 ∧
      (configured 4#5 [(0, 1#6)]).regVal ((configured 4#5 [(0, 1#6)]).index 0x8000000000000000#64) ≤
        65 - (configured 4#5 [(0, 1#6)]).b.toNat := by decide

/-- `j = M - 1` is legal and `j = M` is not (42_readout.md R100), at both bounds of `B`. -/
theorem witness_ReadregReturnsOneRegister :
    State.reset.cfg = false ∧ (configured 4#5 []).cfg = true ∧ (configured 4#5 []).Legal ∧
      (configured 4#5 []).m ≤ (16#64).toNat ∧ (15#64).toNat < (configured 4#5 []).m ∧
      (configured 16#5 []).m ≤ (65536#64).toNat ∧ (65535#64).toNat < (configured 16#5 []).m ∧
      (configured 16#5 []).b.toNat ≤ 16 := by decide

theorem witness_NumzerosCountsZeroRegisters :
    State.reset.cfg = false ∧ (configured 16#5 []).cfg = true ∧ (configured 16#5 []).b.toNat ≤ 16 := by decide

theorem witness_HistbinCountsRegistersHoldingK :
    State.reset.cfg = false ∧ (configured 16#5 []).cfg = true ∧ (configured 16#5 []).b.toNat ≤ 16 ∧
      (configured 4#5 []).Legal ∧ 65 - (configured 4#5 []).b.toNat < (62#64).toNat := by decide

theorem witness_ClzCountsLeadingZeros :
    (0#64 : Word) = 0#64 ∧ ((1#64).getLsbD 0 = true ∧ ∀ i < 64, 0 < i → (1#64).getLsbD i = false) ∧
      (0xFFFFFFFFFFFFFFFF#64).getLsbD 63 = true := by decide

theorem witness_StepRunsTheDecodedCommand :
    (withPort State.reset [.command 0x60000000000000000#68]).port = [.command 0x60000000000000000#68] ∧
      decode 0x60000000000000000#68 = .ok (.getb 0#64) := by decide

theorem witness_PlacedWordRunsNext : decode 0xA0000000000000010#68 = .ok (.rank 0x10#64) := by decide

theorem witness_ReservedOpcodeAnswersIllegal :
    (withPort State.reset [.command 0xB0000000000000000#68]).port = [.command 0xB0000000000000000#68] ∧
      0xB ≤ (0xB0000000000000000#68).toNat / 2 ^ 64 := by decide

theorem witness_ResetUnconfiguresWithoutResponse :
    (withPort (configured 4#5 []) [.reset]).port = [.reset] := by decide

theorem witness_NothingHappensWithoutACommand : State.reset.port = [] := by decide

theorem witness_FirstErrorInOrderIsReported :
    (withPort (configured 4#5 []) [.command 0x10000000000000003#68]).port = [.command 0x10000000000000003#68] ∧
      ((configured 4#5 []).cfg = true → (configured 4#5 []).b.toNat ≤ 16) := by decide

/-- An error and a success. -/
theorem witness_ErrorsChangeNothing :
    said (step (withPort State.reset [.command 0x60000000000000000#68])) = some ⟨.errNotConfigured, 0#64⟩ ∧
      said (step (withPort State.reset [.command 0x70000000000000000#68])) = some ⟨.ok, 64#64⟩ := by decide

theorem witness_ConfiguredCommandsNeverFail :
    State.reset.Legal ∧ (configured 4#5 []).Legal ∧ (configured 4#5 []).cfg = true := by decide

theorem witness_LegalStatesNeverStop : State.reset.Legal ∧ (configured 16#5 [(65535, 49#6)]).Legal := by decide

/-- A query and an UPDATE that answer a next state. -/
theorem witness_ReadsHaveNoSideEffects :
    holds State.cfg (exec (.getb 0#64) (configured 4#5 [])) = some true ∧
      holds State.cfg (exec (.update 0#64) (configured 4#5 [])) = some true ∧ 4 ≤ (configured 4#5 []).b.toNat := by decide

/-- An INIT that changes `CFG` and `B`, and an UPDATE that changes a register. -/
theorem witness_OnlyInitAndUpdateChangeTheBlock :
    holds (fun t => (t.cfg, t.b)) (exec (.init 4#64) State.reset) = some (true, 4#5) ∧
      holds State.reg (exec (.update 0x10#64) (configured 4#5 [])) = some [(0, 60#6)] := by decide

theorem witness_UpdateChangesAtMostOneRegister :
    holds State.reg (exec (.update 0x10#64) (configured 4#5 [(3, 7#6)])) = some [(0, 60#6), (3, 7#6)] ∧
      3 ≠ (configured 4#5 [(3, 7#6)]).index 0x10#64 := by decide

theorem witness_InitLeavesThePort :
    holds (fun t => (t.cfg, t.port)) (exec (.init 4#64) (withPort State.reset [.reset])) = some (true, [.reset]) := by decide

theorem witness_CommandsSeeOnlyTheBlock : holds State.b (exec (.idx 3#64) (configured 4#5 [])) = some 4#5 := by decide

/-- Cleared by reset, kept by a command; set by INIT 4, not by INIT 3; GETB in both states. -/
theorem witness_ConfiguredFlagLifecycle :
    holds State.cfg (step (withPort (configured 4#5 []) [.reset])) = some false ∧
      holds State.cfg (step (withPort (configured 4#5 []) [.command 0x60000000000000000#68])) = some true ∧
      holds State.cfg (step (withPort State.reset [.command 0x10000000000000004#68])) = some true ∧
      holds State.cfg (step (withPort State.reset [.command 0x10000000000000003#68])) = some false ∧
      State.reset.cfg = false := by decide

/-- One refused INIT on the port. -/
theorem witness_UnconfiguredUntilSuccessfulInit :
    State.reset.cfg = false ∧
      (∀ w d, HostEvent.command w ∈ (withPort State.reset [.command 0x10000000000000003#68]).port.take 1 →
        decode w = .ok (.init d) → ¬ (4 ≤ d.toNat ∧ d.toNat ≤ 16)) ∧
      holds State.cfg (core.run 1 (withPort State.reset [.command 0x10000000000000003#68])) = some false := by
  refine ⟨rfl, fun w d hw hd => ?_, by decide⟩
  simp only [withPort, List.take_succ_cons, List.take_zero, List.mem_singleton, HostEvent.command.injEq] at hw
  subst hw
  have h : decode 0x10000000000000003#68 = .ok (.init 3#64) := by decide
  rw [h] at hd
  cases hd
  decide

theorem witness_EveryStepKeepsLegal :
    (withPort (configured 4#5 []) [.command 0x20000000000000010#68]).Legal ∧
      holds State.reg (step (withPort (configured 4#5 []) [.command 0x20000000000000010#68])) = some [(0, 60#6)] := by decide

/-- One UPDATE and a reset that waits behind it: the run of one step ends before the reset. -/
theorem witness_RegistersNeverDecrease :
    (withPort (configured 4#5 []) [.command 0x20000000000000010#68, .reset]).Legal ∧
      HostEvent.reset ∉ (withPort (configured 4#5 []) [.command 0x20000000000000010#68, .reset]).port.take 1 ∧
      holds (fun t => (t.reg, t.port)) (core.run 1 (withPort (configured 4#5 []) [.command 0x20000000000000010#68, .reset])) =
        some ([(0, 60#6)], [.reset]) := by
  decide

/-- INIT, then one step before a reset that waits on the port. -/
theorem witness_PrecisionIsFixedFromInitToReset :
    State.reset.cfg = false ∧ (4 ≤ (4#64).toNat ∧ (16#64).toNat ≤ 16) ∧
      HostEvent.reset ∉ (withPort State.reset [.command 0x60000000000000000#68, .reset]).port.take 1 ∧
      holds (fun t => holds (fun u => (u.b, u.port)) (core.run 1 t))
        (exec (.init 16#64) (withPort State.reset [.command 0x60000000000000000#68, .reset])) =
          some (some (16#5, [.reset])) := by decide

/-- After `INIT 4` one UPDATE of 0x10, before a reset and an UPDATE of a second lifetime that wait on the port: register 0 is
selected, register 1 is not. -/
theorem witness_ZeroExactlyWhenNeverSelected :
    State.reset.cfg = false ∧ (4 ≤ (4#64).toNat ∧ (4#64).toNat ≤ 16) ∧
      HostEvent.reset ∉
        (withPort State.reset [.command 0x20000000000000010#68, .reset, .command 0x20000000000000001#68]).port.take 1 ∧
      1 < (configured 4#5 []).m ∧ (configured 4#5 []).index 0x10#64 = 0 ∧
      holds (fun t => holds State.reg (core.run 1 t))
        (exec (.init 4#64)
          (withPort State.reset [.command 0x20000000000000010#68, .reset, .command 0x20000000000000001#68])) =
            some (some [(0, 60#6)]) := by decide

/-- The hidden entry `M` at both bounds of `B`. -/
theorem witness_HiddenEntriesStayZero :
    (configured 4#5 [(15, 1#6)]).Legal ∧ (configured 4#5 [(15, 1#6)]).m ≤ (16#64).toNat ∧
      (configured 16#5 []).Legal ∧ (configured 16#5 []).m ≤ (65536#64).toNat := by decide

/-- UPDATE 0 takes register 0 from 60 to the bound 61. -/
theorem witness_RegistersAreBounded :
    (configured 4#5 [(0, 60#6)]).Legal ∧ (configured 4#5 [(0, 60#6)]).regVal 0 ≠ 65 - (configured 4#5 []).b.toNat ∧
      holds (fun t => t.regVal 0) (exec (.update 0#64) (configured 4#5 [(0, 60#6)])) =
        some (65 - (configured 4#5 []).b.toNat) := by decide

theorem witness_UpdateOrderAndRepetitionDoNotMatter :
    (configured 4#5 []).Legal ∧ ∀ v : Word, v ∈ [0x10#64, 0xF#64] ↔ v ∈ [0xF#64, 0x10#64, 0xF#64] :=
  ⟨by decide, fun v => by simp [or_comm]⟩

theorem witness_EstimateRegimesDoNotOverlap :
    (4 ≤ 4 ∧ 16 ≤ 16 ∧ 0 ≤ 2 ^ 4 ∧ 2 ^ 16 ≤ 2 ^ 16) ∧ ((163840 : ℝ) ≤ 2.5 * 2 ^ 16) := by norm_num

/-- A raw estimate between the large-range threshold and 2^32 (95_test_vectors.md 2.7), at both bounds of `b`. -/
theorem witness_LargeRangeCorrectionWithinItsDomain :
    (4 ≤ 4 ∧ 4 ≤ 16 ∧ 16 ≤ 16) ∧ (2 ^ 32 / 30 < (180657061.888 : ℝ) ∧ (180657061.888 : ℝ) < 2 ^ 32) := by norm_num

theorem witness_FreshEstimateIsZero :
    State.reset.cfg = false ∧ (4 ≤ (4#64).toNat ∧ (4#64).toNat ≤ 16) ∧
      holds State.cfg (exec (.init 4#64) State.reset) = some true := by decide

theorem witness_ContentsBeforeInitAreUnobservable :
    State.reset.cfg = false ∧ ({ State.reset with b := 9#5, reg := [(1, 2#6)] } : State).cfg = false ∧
      ({ State.reset with b := 9#5, reg := [(1, 2#6)] } : State).port = State.reset.port ∧
      ({ State.reset with b := 9#5, reg := [(1, 2#6)] } : State).responses = State.reset.responses := by decide

end Sys2Proof.Tests
end

section
/-! SUPPORT. The state's own obligations (10_state.md): what is legal stays legal, registers only rise between INIT and
reset, CFG's life cycle, and what no command and no run can see. -/

namespace Sys2Proof.Machine

/-! ## The shared checks, where their outcome is known -/

theorem requireConfigured_of_configured {s : State} (hc : s.cfg = true) (go : Answer) :
    requireConfigured s go = go := if_pos hc

theorem requireConfigured_of_unconfigured {s : State} (hc : s.cfg = false) (go : Answer) :
    requireConfigured s go = .next (s.respond .errNotConfigured 0#64) := by
  simp [requireConfigured, hc, raiseError]

theorem requireUnconfigured_of_unconfigured {s : State} (hc : s.cfg = false) (go : Answer) :
    requireUnconfigured s go = go := by
  simp [requireUnconfigured, hc]

theorem requireUnconfigured_of_configured {s : State} (hc : s.cfg = true) (go : Answer) :
    requireUnconfigured s go = .next (s.respond .errAlreadyConfigured 0#64) := if_pos hc

theorem requirePrecision_of_legal {s : State} {d : Word} (hd : 4 ≤ d.toNat ∧ d.toNat ≤ 16) (go : Answer) :
    requirePrecision s d go = go := if_pos ((legalPrecision_iff d).mpr hd)

theorem requirePrecision_of_illegal {s : State} {d : Word} (hd : ¬ (4 ≤ d.toNat ∧ d.toNat ≤ 16)) (go : Answer) :
    requirePrecision s d go = .next (s.respond .errInvalidPrecision 0#64) :=
  if_neg fun h => hd ((legalPrecision_iff d).mp h)

theorem requireIndex_of_lt {s : State} {j : Word} (hj : j.toNat < s.m) (go : Answer) :
    requireIndex s j go = go := if_pos hj

theorem requireIndex_of_le {s : State} {j : Word} (hj : s.m ≤ j.toNat) (go : Answer) :
    requireIndex s j go = .next (s.respond .errIndexRange 0#64) := if_neg (Nat.not_lt.mpr hj)

theorem withEntry_of_lt {s : State} {j : Nat} (hj : j < Config.mMax) (use : Reg → Answer) :
    withEntry s j use = use (s.reg.read j) := if_pos hj

theorem withEntriesBelow_of_le {n : Nat} (hn : n ≤ Config.mMax) (use : Answer) :
    withEntriesBelow n use = use := if_pos hn

/-- The state a successful INIT leaves (40_config.md R81). -/
def State.initialized (s : State) (d : Word) : State :=
  State.respond { s with cfg := true, b := precisionBits d, reg := RegFile.cleared } .ok 0#64

theorem exec_init_of_legal {s : State} {d : Word} (hc : s.cfg = false) (hd : 4 ≤ d.toNat ∧ d.toNat ≤ 16) :
    exec (.init d) s = .next (s.initialized d) :=
  (requireUnconfigured_of_unconfigured hc _).trans (requirePrecision_of_legal hd _)

/-- Before INIT every command but a successful INIT gets one fixed response, whatever `B` and `REG` hold. -/
theorem exec_of_unconfigured (i : Instr) :
    (∃ st r, ∀ s : State, s.cfg = false → exec i s = .next (s.respond st r)) ∨
      ∃ d, i = .init d ∧ 4 ≤ d.toNat ∧ d.toNat ≤ 16 := by
  have needsConfigured (go : State → Answer) (hi : ∀ s, exec i s = requireConfigured s (go s)) :
      ∃ st r, ∀ s : State, s.cfg = false → exec i s = .next (s.respond st r) :=
    ⟨.errNotConfigured, 0#64, fun s hc => (hi s).trans (requireConfigured_of_unconfigured hc _)⟩
  cases i with
  | nop d => exact .inl ⟨.ok, 0#64, fun _ _ => rfl⟩
  | clz64 x => exact .inl ⟨.ok, zext64 (clz64 x), fun _ _ => rfl⟩
  | popcnt64 x => exact .inl ⟨.ok, zext64 (popcount64 x), fun _ _ => rfl⟩
  | init d =>
    by_cases hd : 4 ≤ d.toNat ∧ d.toNat ≤ 16
    · exact .inr ⟨d, rfl, hd⟩
    · exact .inl ⟨.errInvalidPrecision, 0#64, fun s hc =>
        (requireUnconfigured_of_unconfigured hc _).trans (requirePrecision_of_illegal hd _)⟩
  | update v => exact .inl (needsConfigured _ fun _ => rfl)
  | readreg j => exact .inl (needsConfigured _ fun _ => rfl)
  | numzeros d => exact .inl (needsConfigured _ fun _ => rfl)
  | histbin k => exact .inl (needsConfigured _ fun _ => rfl)
  | getb d => exact .inl (needsConfigured _ fun _ => rfl)
  | idx v => exact .inl (needsConfigured _ fun _ => rfl)
  | rank v => exact .inl (needsConfigured _ fun _ => rfl)

/-! ## Legal states -/

/-- Being legal is a fact about the block alone. -/
theorem State.Legal.of_sameBlock {s t : State} (hl : s.Legal) (h : s.SameBlock t) : t.Legal := by
  obtain ⟨hc, hb, hr⟩ := h
  simpa [State.Legal, State.m, hc, hb, hr] using hl

theorem takeReset_legal (s : State) : (takeReset s).Legal :=
  ⟨RegFile.cleared_wf, fun hc => absurd hc (by simp)⟩

theorem State.initialized_legal (s : State) {d : Word} (hd : 4 ≤ d.toNat ∧ d.toNat ≤ 16) :
    (s.initialized d).Legal := by
  have hb : (s.initialized d).b.toNat = d.toNat := precisionBits_toNat hd.2
  exact ⟨RegFile.cleared_wf, fun _ => ⟨hb ▸ hd.1, hb ▸ hd.2, fun c hcell => absurd hcell List.not_mem_nil⟩⟩

/-- The entry UPDATE writes is visible and within the bound (41_update.md R90, R96). -/
theorem State.Legal.write_rank {s : State} (hl : s.Legal) (hc : s.cfg = true) (v : Word) :
    State.Legal { s with reg := s.reg.write (s.index v) (BitVec.ofNat 6 (s.rank v)) } := by
  obtain ⟨hb4, hb16⟩ := hl.precision hc
  obtain ⟨hwf, hcells⟩ := hl
  refine ⟨RegFile.write_wf hwf ((s.index_lt v).trans_le (State.m_le_mMax hb16)), fun _ => ⟨hb4, hb16, ?_⟩⟩
  intro c hcell
  rcases RegFile.mem_write hcell with hold | ⟨rfl, -⟩
  · exact (hcells hc).2.2 c hold
  · exact ⟨s.index_lt v, (State.rank_toReg (by omega) v).trans_le (s.rank_bounds v).2⟩

theorem Change.legal {i : Instr} {s t : State} (h : Change s i t) (hl : s.Legal) : t.Legal := by
  cases h with
  | answer => exact hl.of_sameBlock ⟨rfl, rfl, rfl⟩
  | construct d _ hd => exact s.initialized_legal hd
  | write v hc _ _ => exact (hl.write_rank hc v).of_sameBlock ⟨rfl, rfl, rfl⟩

theorem step_legal {s t : State} (h : step s = .next t) (hl : s.Legal) : t.Legal := by
  rcases step_cases h with ⟨-, rfl⟩ | ⟨rest, -, rfl⟩ | ⟨w, rest, e, -, -, rfl⟩ | ⟨w, rest, i, -, -, hch⟩
  · exact hl
  · exact takeReset_legal _
  · exact hl.of_sameBlock ⟨rfl, rfl, rfl⟩
  · exact hch.legal (hl.of_sameBlock ⟨rfl, rfl, rfl⟩)

/-- Settles O33: the reset state is what a reset leaves, with no entry listed and CFG = 0. -/
theorem resetIsLegal : Obligations.ResetIsLegal := takeReset_legal State.reset

/-- Settles O34: the invariant's step lemma, by what a step can do. -/
theorem everyStepKeepsLegal : Obligations.EveryStepKeepsLegal := fun _ _ hl h => step_legal h hl

/-- Settles O37: every listed index is visible in a legal state, so a hidden one reads 0; the index mux is a remainder
modulo `M`, and READREG checks its index. -/
theorem hiddenEntriesStayZero : Obligations.HiddenEntriesStayZero := by
  rintro s ⟨-, hcells⟩ hc
  obtain ⟨-, -, hvisible⟩ := hcells hc
  refine ⟨fun j hj => ?_, s.index_lt, fun j hj => ?_⟩
  · have hzero : s.reg.read j = 0#6 :=
      RegFile.read_of_forall_ne fun c hcell => Nat.ne_of_lt ((hvisible c hcell).1.trans_le hj)
    simp [State.regVal, hzero]
  · exact (requireConfigured_of_configured hc _).trans (requireIndex_of_le hj _)

/-! ## CFG, B and REG along a step -/

theorem Change.stays_configured {i : Instr} {s t : State} (h : Change s i t) (hc : s.cfg = true) : t.cfg = true := by
  cases h with
  | answer => exact hc
  | construct => rfl
  | write => exact hc

/-- Nothing but reset clears CFG (10_state.md R21). -/
theorem step_stays_configured {s t : State} (h : step s = .next t) (hc : s.cfg = true)
    (hr : ∀ rest, s.port ≠ .reset :: rest) : t.cfg = true := by
  rcases step_cases h with ⟨-, rfl⟩ | ⟨rest, hp, -⟩ | ⟨w, rest, e, -, -, rfl⟩ | ⟨w, rest, i, -, -, hch⟩
  · exact hc
  · exact absurd hp (hr rest)
  · exact hc
  · exact hch.stays_configured hc

/-- UPDATE writes only a larger rank, and INIT does not construct a configured block. -/
theorem Change.regVal_le {i : Instr} {s t : State} (h : Change s i t) (hc : s.cfg = true) (hb : 2 ≤ s.b.toNat)
    (j : Nat) : s.regVal j ≤ t.regVal j := by
  cases h with
  | answer => exact le_rfl
  | construct d hc' => simp [hc] at hc'
  | write v _ _ hr =>
    refine le_of_le_of_eq ?_ (regVal_write_rank hb v j).symm
    split
    · next hj => exact hj ▸ hr.le
    · exact le_rfl

theorem step_regVal_le {s t : State} (h : step s = .next t) (hl : s.Legal) (hc : s.cfg = true)
    (hr : ∀ rest, s.port ≠ .reset :: rest) (j : Nat) : s.regVal j ≤ t.regVal j := by
  rcases step_cases h with ⟨-, rfl⟩ | ⟨rest, hp, -⟩ | ⟨w, rest, e, -, -, rfl⟩ | ⟨w, rest, i, -, -, hch⟩
  · exact le_rfl
  · exact absurd hp (hr rest)
  · exact le_rfl
  · exact hch.regVal_le hc (le_trans (by decide) (hl.precision hc).1) j

/-- Settles O35, by induction on the number of steps: each keeps the block legal and configured and no register falls. -/
theorem registersNeverDecrease : Obligations.RegistersNeverDecrease := by
  intro n
  induction n with
  | zero =>
    intro s t _ _ _ h j
    cases h
    exact le_rfl
  | succ n ih =>
    intro s t hl hc hr h j
    obtain ⟨u, hu, h⟩ := run_succ_next h
    obtain ⟨hnext, hrest⟩ := no_reset_after_step hu hr
    calc s.regVal j ≤ u.regVal j := step_regVal_le hu hl hc hnext j
      _ ≤ t.regVal j := ih u t (step_legal hu hl) (step_stays_configured hu hc hnext) hrest h j

/-- Settles O27: the three ways a command can change the block. -/
theorem onlyInitAndUpdateChangeTheBlock : Obligations.OnlyInitAndUpdateChangeTheBlock := by
  intro i s t h
  cases exec_cases h with
  | answer => simp
  | construct d hc hd =>
    exact ⟨fun _ => ⟨d, rfl, hc, hd.1, hd.2, rfl, precisionBits_toNat hd.2⟩, fun _ => .inl ⟨d, rfl, hc⟩⟩
  | write v hc _ _ => exact ⟨by simp, fun _ => .inr ⟨v, rfl, hc⟩⟩

/-- A step from an unconfigured block configures it exactly when it runs an INIT with a legal precision. -/
theorem step_configures_iff {s t : State} (h : step s = .next t) (hc : s.cfg = false) :
    t.cfg = true ↔ ∃ w rest d, s.port = .command w :: rest ∧ decode w = .ok (.init d) ∧
      4 ≤ d.toNat ∧ d.toNat ≤ 16 := by
  constructor
  · intro ht
    rcases step_cases h with ⟨-, rfl⟩ | ⟨rest, -, rfl⟩ | ⟨w, rest, e, -, -, rfl⟩ | ⟨w, rest, i, hp, hd, hch⟩
    · simp [hc] at ht
    · simp at ht
    · simp [hc] at ht
    · cases hch with
      | answer => simp [hc] at ht
      | construct d _ hprec => exact ⟨w, rest, d, hp, hd, hprec⟩
      | write v hc' => simp [hc] at hc'
  · rintro ⟨w, rest, d, hp, hd, hprec⟩
    rw [step_command hp hd, exec_init_of_legal (by exact hc) hprec] at h
    cases h
    rfl

/-- Settles O31: CFG along a step from either value, then GETB and the configuration check in an unconfigured block. -/
theorem configuredFlagLifecycle : Obligations.ConfiguredFlagLifecycle := by
  refine ⟨fun s t h hc => ⟨fun ht => ?_, ?_⟩, fun s t => step_configures_iff, fun s d => ?_, fun s d hc i hi => ?_⟩
  · by_contra hno
    have := step_stays_configured h hc (not_exists.mp hno)
    simp [ht] at this
  · rintro ⟨rest, hp⟩
    rw [step_reset hp] at h
    cases h
    rfl
  · cases hc : s.cfg with
    | true => exact ⟨_, _, requireConfigured_of_configured hc _, rfl, rfl⟩
    | false => exact ⟨_, _, requireConfigured_of_unconfigured hc _, rfl, rfl⟩
  · simp only [List.mem_cons, List.not_mem_nil, or_false] at hi
    rcases hi with rfl | rfl | rfl | rfl | rfl | rfl | rfl <;> exact requireConfigured_of_unconfigured hc _

/-! ## What a command sees: the block alone (10_state.md R30) -/

/-- The same block with another port and other responses. -/
def State.withEnds (s : State) (p : List HostEvent) (rs : List Response) : State :=
  { s with port := p, responses := rs }

/-- In `s` the meaning `a` adds one response to the block's change, and gives the same response and the same change
whatever the port and the responses so far are. -/
def SeesOnlyBlock (s : State) (a : State → Answer) : Prop :=
  ∀ t, a s = .next t → ∃ r, t.responses = s.responses ++ [r] ∧
    ∀ p rs, a (s.withEnds p rs) = .next (t.withEnds p (rs ++ [r]))

namespace SeesOnlyBlock

variable {s : State} {a c : State → Answer}

/-- A response whose RESULT is computed from the block. -/
theorem answer {st : Status} {r : State → Word} (hr : ∀ p rs, r (s.withEnds p rs) = r s) :
    SeesOnlyBlock s fun x => .next (x.respond st (r x)) := by
  rintro t ⟨⟩
  exact ⟨⟨st, r s⟩, rfl, fun p rs => by simp only [hr]; rfl⟩

/-- One response after the change `u` of the block. -/
theorem change {u : State → State} {st : Status} {r : Word} (hrs : (u s).responses = s.responses)
    (hu : ∀ p rs, u (s.withEnds p rs) = (u s).withEnds p rs) :
    SeesOnlyBlock s fun x => .next ((u x).respond st r) := by
  rintro t ⟨⟩
  exact ⟨⟨st, r⟩, by simp [hrs], fun p rs => by simp only [hu]; rfl⟩

/-- A choice made on the block. -/
theorem ite {q : State → Prop} [DecidablePred q] (hq : ∀ p rs, q (s.withEnds p rs) ↔ q s)
    (ha : SeesOnlyBlock s a) (hc : SeesOnlyBlock s c) : SeesOnlyBlock s fun x => if q x then a x else c x := by
  intro t h
  by_cases hs : q s
  · obtain ⟨r, hr, hends⟩ := ha t (by simpa [hs] using h)
    exact ⟨r, hr, fun p rs => by simp [hq, hs, hends]⟩
  · obtain ⟨r, hr, hends⟩ := hc t (by simpa [hs] using h)
    exact ⟨r, hr, fun p rs => by simp [hq, hs, hends]⟩

theorem fault {f : Fault} : SeesOnlyBlock s fun _ => .fault f := fun _ h => by cases h

theorem requireConfigured (ha : SeesOnlyBlock s a) :
    SeesOnlyBlock s fun x => Machine.requireConfigured x (a x) :=
  ite (fun _ _ => Iff.rfl) ha (answer fun _ _ => rfl)

theorem requireUnconfigured (ha : SeesOnlyBlock s a) :
    SeesOnlyBlock s fun x => Machine.requireUnconfigured x (a x) :=
  ite (fun _ _ => Iff.rfl) (answer fun _ _ => rfl) ha

theorem requirePrecision {d : Word} (ha : SeesOnlyBlock s a) :
    SeesOnlyBlock s fun x => Machine.requirePrecision x d (a x) :=
  ite (fun _ _ => Iff.rfl) ha (answer fun _ _ => rfl)

theorem requireIndex {j : Word} (ha : SeesOnlyBlock s a) :
    SeesOnlyBlock s fun x => Machine.requireIndex x j (a x) :=
  ite (fun _ _ => Iff.rfl) ha (answer fun _ _ => rfl)

theorem withEntry {j : State → Nat} {use : State → Reg → Answer} (hj : ∀ p rs, j (s.withEnds p rs) = j s)
    (ha : SeesOnlyBlock s fun x => use x (x.reg.read (j x))) :
    SeesOnlyBlock s fun x => Machine.withEntry x (j x) (use x) :=
  ite (fun p rs => by rw [hj p rs]) ha fault

theorem withEntriesBelow {n : State → Nat} (hn : ∀ p rs, n (s.withEnds p rs) = n s) (ha : SeesOnlyBlock s a) :
    SeesOnlyBlock s fun x => Machine.withEntriesBelow (n x) (a x) :=
  ite (fun p rs => by rw [hn p rs]) ha fault

end SeesOnlyBlock

/-- No command looks at the port or at earlier responses. -/
theorem exec_seesOnlyBlock (i : Instr) (s : State) : SeesOnlyBlock s (exec i) := by
  cases i with
  | nop d => exact .answer fun _ _ => rfl
  | clz64 x => exact .answer fun _ _ => rfl
  | popcnt64 x => exact .answer fun _ _ => rfl
  | init d => exact .requireUnconfigured (.requirePrecision (.change rfl fun _ _ => rfl))
  | getb d => exact .requireConfigured (.answer fun _ _ => rfl)
  | idx v => exact .requireConfigured (.answer fun _ _ => rfl)
  | rank v => exact .requireConfigured (.answer fun _ _ => rfl)
  | readreg j =>
    exact .requireConfigured (.requireIndex (.withEntry (fun _ _ => rfl) (.answer fun _ _ => rfl)))
  | numzeros d => exact .requireConfigured (.withEntriesBelow (fun _ _ => rfl) (.answer fun _ _ => rfl))
  | histbin k => exact .requireConfigured (.withEntriesBelow (fun _ _ => rfl) (.answer fun _ _ => rfl))
  | update v =>
    exact .requireConfigured (.withEntry (fun _ _ => rfl)
      (.ite (fun _ _ => Iff.rfl) (.change rfl fun _ _ => rfl) (.answer fun _ _ => rfl)))

/-- Settles O30: every check, choice and RESULT of a command is computed from the block. -/
theorem commandsSeeOnlyTheBlock : Obligations.CommandsSeeOnlyTheBlock := fun i s => exec_seesOnlyBlock i s

/-! ## A legal block never stops -/

/-- The only stop, an index beyond the register file, needs `B > 16` (00_scope.md R8). -/
theorem exec_completes_of_configured (i : Instr) {s : State} (hl : s.Legal) (hc : s.cfg = true) :
    ∃ t, exec i s = .next t := by
  have entries : s.m ≤ Config.mMax := State.m_le_mMax (hl.precision hc).2
  have configured {go : Answer} (h : ∃ t, go = .next t) : ∃ t, requireConfigured s go = .next t :=
    (requireConfigured_of_configured hc go).symm ▸ h
  cases i with
  | nop d => exact ⟨_, rfl⟩
  | clz64 x => exact ⟨_, rfl⟩
  | popcnt64 x => exact ⟨_, rfl⟩
  | init d => exact ⟨_, requireUnconfigured_of_configured hc _⟩
  | getb d => exact configured ⟨_, rfl⟩
  | idx v => exact configured ⟨_, rfl⟩
  | rank v => exact configured ⟨_, rfl⟩
  | numzeros d => exact configured ⟨_, withEntriesBelow_of_le entries _⟩
  | histbin k => exact configured ⟨_, withEntriesBelow_of_le entries _⟩
  | readreg j =>
    refine configured ?_
    rcases Nat.lt_or_ge j.toNat s.m with hj | hj
    · exact ⟨_, (requireIndex_of_lt hj _).trans (withEntry_of_lt (hj.trans_le entries) _)⟩
    · exact ⟨_, requireIndex_of_le hj _⟩
  | update v =>
    refine configured ?_
    rw [withEntry_of_lt ((s.index_lt v).trans_le entries)]
    split <;> exact ⟨_, rfl⟩

theorem exec_completes (i : Instr) {s : State} (hl : s.Legal) : ∃ t, exec i s = .next t := by
  cases hc : s.cfg with
  | true => exact exec_completes_of_configured i hl hc
  | false =>
    rcases exec_of_unconfigured i with ⟨st, r, hi⟩ | ⟨d, rfl, hd⟩
    · exact ⟨_, hi s hc⟩
    · exact ⟨_, exec_init_of_legal hc hd⟩

theorem step_completes {s : State} (hl : s.Legal) : ∃ t, step s = .next t := by
  rcases hp : s.port with _ | ⟨_ | _, rest⟩
  · exact ⟨_, step_idle hp⟩
  · next w =>
    rcases hd : decode w with e | i
    · exact ⟨_, step_reserved hp hd⟩
    · rw [step_command hp hd]
      exact exec_completes i (hl.of_sameBlock ⟨rfl, rfl, rfl⟩)
  · exact ⟨_, step_reset hp⟩

/-! ## What no run can see: the contents before INIT (10_state.md R32) -/

/-- Two states no run can tell apart: one legal state, or two unconfigured ones with the same port and responses. -/
inductive Alike : State → State → Prop where
  /-- The same legal state twice. -/
  | same (s : State) (hl : s.Legal) : Alike s s
  /-- Before INIT, whatever `B` and `REG` hold. -/
  | unconfigured (s s' : State) (hc : s.cfg = false) (hc' : s'.cfg = false) (hp : s'.port = s.port)
      (hr : s'.responses = s.responses) : Alike s s'

theorem Alike.observe_eq {s s' : State} (h : Alike s s') : s'.observe = s.observe := by
  cases h with
  | same => rfl
  | unconfigured _ hc hc' _ hr => simp [State.observe, hc, hc', hr]

theorem Alike.port_eq {s s' : State} (h : Alike s s') : s'.port = s.port := by
  cases h with
  | same => rfl
  | unconfigured _ _ _ hp _ => exact hp

theorem Alike.sameBlock {s s' : State} (h : Alike s s') (hc : s.cfg = true) : s.SameBlock s' := by
  cases h with
  | same => exact ⟨rfl, rfl, rfl⟩
  | unconfigured _ hc' => simp [hc] at hc'

/-- A successful INIT makes the two states equal; every other command answers both alike. -/
theorem exec_alike_of_unconfigured (i : Instr) {s s' : State} (hc : s.cfg = false) (hc' : s'.cfg = false)
    (hp : s'.port = s.port) (hr : s'.responses = s.responses) :
    ∃ t t', exec i s = .next t ∧ exec i s' = .next t' ∧ Alike t t' := by
  rcases exec_of_unconfigured i with ⟨st, r, hi⟩ | ⟨d, rfl, hd⟩
  · exact ⟨_, _, hi s hc, hi s' hc', .unconfigured _ _ hc hc' hp (by simp [hr])⟩
  · have hsame : s'.initialized d = s.initialized d := by simp [State.initialized, hp, hr]
    refine ⟨_, _, exec_init_of_legal hc hd, exec_init_of_legal hc' hd, ?_⟩
    rw [hsame]
    exact .same _ (s.initialized_legal hd)

theorem step_alike {s s' : State} (h : Alike s s') :
    ∃ t t', step s = .next t ∧ step s' = .next t' ∧ Alike t t' := by
  cases h with
  | same hl =>
    obtain ⟨t, ht⟩ := step_completes hl
    exact ⟨t, t, ht, ht, .same t (step_legal ht hl)⟩
  | unconfigured _ hc hc' hp' hr =>
    rcases hp : s.port with _ | ⟨_ | _, rest⟩ <;> rw [hp] at hp'
    · exact ⟨_, _, step_idle hp, step_idle hp', .unconfigured _ _ hc hc' (hp'.trans hp.symm) hr⟩
    · next w =>
      rcases hd : decode w with e | i
      · exact ⟨_, _, step_reserved hp hd, step_reserved hp' hd, .unconfigured _ _ hc hc' rfl (by simp [hr])⟩
      · rw [step_command hp hd, step_command hp' hd]
        exact exec_alike_of_unconfigured i hc hc' rfl hr
    · exact ⟨_, _, step_reset hp, step_reset hp', .unconfigured _ _ rfl rfl rfl hr⟩

theorem run_alike {n : Nat} {s s' : State} (h : Alike s s') :
    ∃ t t', core.run n s = .next t ∧ core.run n s' = .next t' ∧ Alike t t' := by
  induction n generalizing s s' with
  | zero => exact ⟨s, s', rfl, rfl, h⟩
  | succ n ih =>
    obtain ⟨u, u', hu, hu', halike⟩ := step_alike h
    rw [run_of_step hu, run_of_step hu']
    exact ih halike

/-- Settles O44: runs from two unconfigured states stay alike, and alike states are observed equal. -/
theorem contentsBeforeInitAreUnobservable : Obligations.ContentsBeforeInitAreUnobservable := by
  intro n s s' hc hc' hp hr
  obtain ⟨t, t', ht, ht', halike⟩ := run_alike (n := n) (.unconfigured s s' hc hc' hp hr)
  exact ⟨t, t', ht, ht', halike.observe_eq, halike.port_eq, halike.sameBlock⟩

end Sys2Proof.Machine
end

section
/-! SUPPORT. The memory's obligation (20_memory.md R46): a command that leaves the block as it is gets the same response
again, and an UPDATE that has written its rank finds it on repetition. -/

namespace Sys2Proof.Machine

/-- Equal blocks differ in the two ends of the command port alone. -/
theorem State.SameBlock.withEnds_eq {s t : State} (h : s.SameBlock t) : s.withEnds t.port t.responses = t := by
  obtain ⟨hc, hb, hr⟩ := h
  simp [State.withEnds, ← hc, ← hb, ← hr]

/-- A command that left the block as it was is answered alike again, since it sees the block alone. -/
theorem exec_repeats_of_sameBlock {i : Instr} {s t : State} (h : exec i s = .next t) (hb : s.SameBlock t) :
    ∃ r, t.responses = s.responses ++ [r] ∧ exec i t = .next { t with responses := t.responses ++ [r] } := by
  obtain ⟨r, hr, hends⟩ := exec_seesOnlyBlock i s t h
  have again := hends t.port t.responses
  rw [hb.withEnds_eq] at again
  exact ⟨r, hr, again⟩

/-- Only INIT and UPDATE change the block, and no command changes the port. -/
theorem Change.sameBlock_port {i : Instr} {s t : State} (h : Change s i t) (hinit : ∀ d, i ≠ .init d)
    (hupdate : ∀ v, i ≠ .update v) : s.SameBlock t ∧ t.port = s.port := by
  cases h with
  | answer => exact ⟨⟨rfl, rfl, rfl⟩, rfl⟩
  | construct d => exact absurd rfl (hinit d)
  | write v => exact absurd rfl (hupdate v)

/-- UPDATE writes nothing where the register already holds its rank or more (41_update.md R92). -/
theorem exec_update_of_rank_le {s : State} {v : Word} (hc : s.cfg = true) (hj : s.index v < Config.mMax)
    (hr : s.rank v ≤ s.regVal (s.index v)) : exec (.update v) s = .next (s.respond .ok 0#64) :=
  calc exec (.update v) s
    _ = withEntry s (s.index v) _ := requireConfigured_of_configured hc _
    _ = _ := withEntry_of_lt hj _
    _ = .next (s.respond .ok 0#64) := if_neg (Nat.not_lt.mpr hr)

/-- After an UPDATE the same UPDATE only answers: it wrote nothing, or the register now holds its rank. -/
theorem exec_update_repeats {s t : State} {v : Word} (h : exec (.update v) s = .next t) (hb : 2 ≤ s.b.toNat) :
    ∃ r, exec (.update v) t = .next { t with responses := t.responses ++ [r] } := by
  cases exec_cases h with
  | answer =>
    obtain ⟨r, -, again⟩ := exec_repeats_of_sameBlock h ⟨rfl, rfl, rfl⟩
    exact ⟨r, again⟩
  | write _ hc hj _ =>
    exact ⟨⟨.ok, 0#64⟩, exec_update_of_rank_le hc hj ((regVal_write_rank hb v _).trans (if_pos rfl)).ge⟩

/-- Settles O26: what a command can do to the block, and what it then answers on the same block. -/
theorem readsHaveNoSideEffects : Obligations.ReadsHaveNoSideEffects := by
  intro i s t h
  refine ⟨fun hinit hupdate => ?_, ?_⟩
  · obtain ⟨hblock, hport⟩ := (exec_cases h).sameBlock_port hinit hupdate
    exact ⟨hblock, hport, exec_repeats_of_sameBlock h hblock⟩
  · rintro v rfl hb
    exact exec_update_repeats h (le_trans (by decide) hb)

end Sys2Proof.Machine
end

section
/-! SUPPORT. The encoding's obligations (30_encoding.md): the decoder's outcomes by OP, decoding and encoding inverse to each
other, the answer to a reserved opcode, and the assembler reading every word back. -/

namespace Sys2Proof

open Laws

/-! ## The fields of a word -/

theorem fieldsOf_op_toNat (w : CommandWord) : (fieldsOf w).op.toNat = w.toNat / 2 ^ 64 := by
  have hw : w.toNat < 2 ^ 68 := w.isLt
  simp only [fieldsOf, BitVec.extractLsb'_toNat, Nat.shiftRight_eq_div_pow]
  omega

theorem fieldsOf_data_toNat (w : CommandWord) : (fieldsOf w).data.toNat = w.toNat % 2 ^ 64 := by
  simp [fieldsOf]

theorem wordOf_eq_iff {c : Command} {w : CommandWord} : wordOf c = w ↔ fieldsOf w = c :=
  ⟨fun h => h ▸ fieldsOf_wordOf c, fun h => h ▸ wordOf_fieldsOf w⟩

/-! ## What the decoder answers -/

theorem Command.eq_of_op_toNat {c : Command} {n : Nat} (h : c.op.toNat = n) :
    c = { op := BitVec.ofNat 4 n, data := c.data } := by
  simp [← h]

/-- The opcode map's two outcomes: the command whose fields these are, or a reserved `OP` (30_encoding.md R64, R68). -/
theorem decodeFields_cases (c : Command) :
    (∃ i, decodeFields c = .ok i ∧ c = { op := opcodeOf i, data := operandOf i }) ∨
    (decodeFields c = .error (.reservedOpcode c.op) ∧ 0xB ≤ c.op.toNat) := by
  unfold decodeFields
  split
  case h_12 => exact .inr ⟨rfl, by simp only [imp_false] at *; omega⟩
  all_goals exact .inl ⟨_, rfl, Command.eq_of_op_toNat ‹_›⟩

theorem decodeFields_opcodeOf (i : Instr) : decodeFields { op := opcodeOf i, data := operandOf i } = .ok i := by
  cases i <;> rfl

theorem decodeFields_ok_iff {c : Command} {i : Instr} :
    decodeFields c = .ok i ↔ c = { op := opcodeOf i, data := operandOf i } := by
  refine ⟨fun h => ?_, fun h => h ▸ decodeFields_opcodeOf i⟩
  rcases decodeFields_cases c with ⟨j, hj, hc⟩ | ⟨he, -⟩
  · rw [h] at hj
    exact Except.ok.inj hj ▸ hc
  · rw [h] at he
    cases he

theorem decodeFields_reserved {c : Command} (h : 0xB ≤ c.op.toNat) :
    decodeFields c = .error (.reservedOpcode c.op) := by
  rcases decodeFields_cases c with ⟨i, -, rfl⟩ | ⟨he, -⟩
  · exact absurd (opcodeOf_le i) (Nat.not_le.mpr h)
  · exact he

theorem decode_ok_iff {w : CommandWord} {i : Instr} : decode w = .ok i ↔ encode i = w :=
  calc decode w = .ok i
    _ ↔ fieldsOf w = { op := opcodeOf i, data := operandOf i } := decodeFields_ok_iff
    _ ↔ encode i = w := wordOf_eq_iff.symm

/-- Settles O13: the opcode map and the layout of the two fields are each inverted exactly. -/
theorem decodeIsInverseOfEncode : Obligations.DecodeIsInverseOfEncode := fun _ _ => decode_ok_iff

/-- Settles O14, by the decoder's two outcomes on the word's fields. -/
theorem decodingIsTotalByOpcode : Obligations.DecodingIsTotalByOpcode := by
  intro w
  rw [← fieldsOf_op_toNat, ← fieldsOf_data_toNat]
  rcases decodeFields_cases (fieldsOf w) with ⟨i, hi, hw⟩ | hreserved
  · exact .inl ⟨i, hi, by rw [hw], by rw [hw], hw ▸ opcodeOf_le i⟩
  · exact .inr hreserved

/-- Settles O15, by running the decoder on each word. -/
theorem sampleWordsDecode : Obligations.SampleWordsDecode := by
  unfold Obligations.SampleWordsDecode
  decide

namespace Machine

/-- Settles O18: the word is refused by the decoder, and the step answers for it. -/
theorem reservedOpcodeAnswersIllegal : Obligations.ReservedOpcodeAnswersIllegal :=
  fun _ w _ hport hop => step_reserved hport (decodeFields_reserved (fieldsOf_op_toNat w ▸ hop))

/-! ## Numbers and words as text -/

theorem digitValue_hexChar : ∀ n < 16, digitValue 16 (hexChar n) = some n := by decide

@[simp] theorem hexDigits_length (width n : Nat) : (hexDigits width n).length = width := by
  induction width generalizing n with
  | zero => rfl
  | succ width ih => simp [hexDigits, ih]

theorem readDigits_append (base acc : Nat) (xs ys : List Char) :
    readDigits base acc (xs ++ ys) = (readDigits base acc xs).bind (readDigits base · ys) := by
  induction xs generalizing acc with
  | nil => rfl
  | cons c xs ih =>
    simp only [List.cons_append, readDigits]
    cases digitValue base c with
    | none => rfl
    | some d => exact ih _

theorem readDigits_hexDigits {width n : Nat} (h : n < 16 ^ width) :
    readDigits 16 0 (hexDigits width n) = some n := by
  induction width generalizing n with
  | zero => simp [hexDigits, readDigits, show n = 0 by simpa using h]
  | succ width ih =>
    have hdiv : n / 16 < 16 ^ width := Nat.div_lt_of_lt_mul (by rwa [← Nat.pow_succ'])
    have hlast : digitValue 16 (hexChar (n % 16)) = some (n % 16) := digitValue_hexChar _ (Nat.mod_lt _ (by decide))
    simp [hexDigits, readDigits_append, ih hdiv, readDigits, hlast, Nat.div_add_mod']

/-- The sixteen digits of a DATA field read back (30_encoding.md R61). -/
theorem readDigits_word (d : Word) : readDigits 16 0 (hexDigits 16 d.toNat) = some d.toNat :=
  readDigits_hexDigits d.isLt

/-- The operand written for a DATA field reads back (30_encoding.md R69). -/
theorem readNumber_word (d : Word) : readNumber ('0' :: 'x' :: hexDigits 16 d.toNat) = some d.toNat := by
  have hread := readDigits_word d
  cases hdigits : hexDigits 16 d.toNat with
  | nil => simpa [hdigits] using hexDigits_length 16 d.toNat
  | cons c rest => rwa [hdigits] at hread

theorem readWordText_wordText (w : CommandWord) : readWordText (wordText w) = some w := by
  have hop : digitValue 16 (hexChar (fieldsOf w).op.toNat) = some (fieldsOf w).op.toNat :=
    digitValue_hexChar _ (fieldsOf w).op.isLt
  have htext : wordText w = hexChar (fieldsOf w).op.toNat :: ':' :: hexDigits 16 (fieldsOf w).data.toNat := by
    simp [wordText, hexDigits, Nat.mod_eq_of_lt (fieldsOf w).op.isLt]
  calc readWordText (wordText w)
    _ = some (wordOf (fieldsOf w)) := by simp [htext, readWordText, hop, readDigits_word]
    _ = some w := congrArg some (wordOf_fieldsOf w)

/-! ## Lines of assembly -/

theorem space_not_mem_mnemonicOf (i : Instr) : ' ' ∉ mnemonicOf i := by
  cases i <;> simp [mnemonicOf]

theorem mnemonicOf_ne_wordDirective (i : Instr) : mnemonicOf i ≠ wordDirective := by
  cases i <;> simp [mnemonicOf, wordDirective]

/-- A mnemonic names its own command: no two commands share one (30_encoding.md R64). -/
theorem commandNamed_mnemonicOf (i : Instr) : commandNamed (operandOf i) (mnemonicOf i) = some i := by
  cases i <;> rfl

theorem assembleCommand_mnemonicOf {i : Instr} {operand : Option Nat} (hreads : readsData i = operand.isSome)
    (hdata : operand.getD 0 = (operandOf i).toNat) : assembleCommand (mnemonicOf i) operand = some (encode i) := by
  simp [assembleCommand, hdata, commandNamed_mnemonicOf, hreads, (operandOf i).isLt]

theorem bne_space_of_not_mem {name : List Char} (h : ' ' ∉ name) : ∀ c ∈ name, (c != ' ') = true :=
  fun _ hc => bne_iff_ne.mpr fun he => h (he ▸ hc)

/-- A name without spaces is read up to its end, and the rest of the line is left. -/
theorem takeWhile_name {name : List Char} (h : ' ' ∉ name) (rest : List Char) :
    (name ++ ' ' :: rest).takeWhile (· != ' ') = name ∧ (name ++ ' ' :: rest).dropWhile (· != ' ') = ' ' :: rest := by
  simp [List.takeWhile_append_of_pos (bne_space_of_not_mem h), List.dropWhile_append_of_pos (bne_space_of_not_mem h)]

theorem assemble_name {name : List Char} (h : ' ' ∉ name) : assemble name = assembleCommand name none := by
  simp [assemble, List.takeWhile_eq_self_iff.mpr (bne_space_of_not_mem h),
    List.dropWhile_eq_nil_iff.mpr (bne_space_of_not_mem h)]

theorem assemble_name_operand {name operand : List Char} {n : Nat} (h : ' ' ∉ name) (hname : name ≠ wordDirective)
    (hn : readNumber operand = some n) : assemble (name ++ ' ' :: operand) = assembleCommand name (some n) := by
  obtain ⟨htake, hdrop⟩ := takeWhile_name h operand
  simp [assemble, htake, hdrop, hname, hn]

theorem assemble_rawLine (w : CommandWord) : assemble (rawLine w) = some w := by
  obtain ⟨htake, hdrop⟩ := takeWhile_name (name := wordDirective) (by decide) (wordText w)
  simp [assemble, rawLine, htake, hdrop, readWordText_wordText]

theorem assemble_mnemonic {i : Instr} (hreads : readsData i = false) (hdata : operandOf i = 0#64) :
    assemble (mnemonicOf i) = some (encode i) :=
  (assemble_name (space_not_mem_mnemonicOf i)).trans (assembleCommand_mnemonicOf hreads (by simp [hdata]))

theorem assemble_mnemonic_operand {i : Instr} (hreads : readsData i = true) :
    assemble (mnemonicOf i ++ ' ' :: '0' :: 'x' :: hexDigits 16 (operandOf i).toNat) = some (encode i) :=
  (assemble_name_operand (space_not_mem_mnemonicOf i) (mnemonicOf_ne_wordDirective i) (readNumber_word _)).trans
    (assembleCommand_mnemonicOf hreads rfl)

theorem assemble_disassemble (w : CommandWord) : assemble (disassemble w) = some w := by
  unfold disassemble
  cases hd : decode w with
  | error e => exact assemble_rawLine w
  | ok i =>
    have hw : encode i = w := decode_ok_iff.mp hd
    by_cases hreads : readsData i = true
    · simp [hreads, assemble_mnemonic_operand hreads, hw]
    · by_cases hdata : operandOf i = 0#64
      · simp [hreads, hdata, assemble_mnemonic (Bool.not_eq_true _ ▸ hreads) hdata, hw]
      · simp [hreads, hdata, assemble_rawLine]

/-- Settles O45: each of the three forms of a disassembled line reads back, and so does the word's own text. -/
theorem assemblerReadsEveryWordBack : Obligations.AssemblerReadsEveryWordBack :=
  fun w => ⟨assemble_disassemble w, readWordText_wordText w⟩

end Machine
end Sys2Proof
end

section
/-! SUPPORT. The configuration commands' obligations (40_config.md): NOP, INIT and GETB on each state, and the precision kept
from INIT to reset. -/

namespace Sys2Proof.Machine

/-! ## INIT -/

theorem exec_init_of_configured {s : State} (hc : s.cfg = true) (d : Word) :
    exec (.init d) s = .next (s.respond .errAlreadyConfigured 0#64) :=
  requireUnconfigured_of_configured hc _

theorem exec_init_of_illegal {s : State} {d : Word} (hc : s.cfg = false) (hd : ¬ (4 ≤ d.toNat ∧ d.toNat ≤ 16)) :
    exec (.init d) s = .next (s.respond .errInvalidPrecision 0#64) :=
  (requireUnconfigured_of_unconfigured hc _).trans (requirePrecision_of_illegal hd _)

/-- The five stored bits lose nothing of a legal precision (40_config.md R81). -/
theorem precisionBits_setWidth {d : Word} (hd : d.toNat ≤ 16) : (precisionBits d).setWidth 64 = d :=
  BitVec.eq_of_toNat_eq ((BitVec.toNat_setWidth_of_le (by decide)).trans (precisionBits_toNat hd))

theorem State.m_of_precision {s : State} {d : Word} (hb : s.b = precisionBits d) (hd : d.toNat ≤ 16) :
    s.m = 2 ^ d.toNat := by
  rw [State.m, hb, precisionBits_toNat hd]

/-- Settles O2: the two checks of INIT in order, then the state that a successful INIT leaves. -/
theorem initConfiguresAndClears : Obligations.InitConfiguresAndClears := by
  intro d s
  refine ⟨rfl, fun hc => exec_init_of_configured hc d, exec_init_of_illegal, fun hc h4 h16 => ?_⟩
  exact ⟨s.initialized d, exec_init_of_legal hc ⟨h4, h16⟩, rfl, rfl, precisionBits_toNat h16,
    State.m_of_precision rfl h16, fun _ => rfl, rfl, rfl⟩

/-- Settles O29: INIT only answers, or it constructs an unconfigured block. -/
theorem initLeavesThePort : Obligations.InitLeavesThePort := by
  intro d s t h
  cases exec_cases h with
  | answer => exact ⟨rfl, ⟨_, rfl⟩, .inl ⟨rfl, rfl, rfl⟩⟩
  | construct _ hc => exact ⟨rfl, ⟨_, rfl⟩, .inr ⟨hc, rfl⟩⟩

/-! ## NOP and GETB -/

/-- Settles O1: NOP has no check, and its response is its whole effect. -/
theorem nopAnswersZeroInEveryState : Obligations.NopAnswersZeroInEveryState := fun _ _ => ⟨rfl, rfl⟩

theorem zext64_b (s : State) : zext64 s.b.toNat = s.b.setWidth 64 := BitVec.ofNat_toNat 64 s.b

theorem exec_getb_of_configured {s : State} (hc : s.cfg = true) (d : Word) :
    exec (.getb d) s = .next (s.respond .ok (s.b.setWidth 64)) :=
  zext64_b s ▸ requireConfigured_of_configured hc _

/-- Settles O3: GETB's one check, and the precision of a legal state zero-extended. -/
theorem getbReturnsPrecision : Obligations.GetbReturnsPrecision := by
  refine fun d s => ⟨rfl, fun hc => requireConfigured_of_unconfigured hc _,
    fun hc => exec_getb_of_configured hc d, fun hl hc => ?_⟩
  rw [BitVec.toNat_setWidth_of_le (by decide)]
  exact hl.precision hc

/-! ## The precision between INIT and reset -/

/-- A run with no reset among its moves keeps what every step but a reset keeps. -/
theorem run_induction_of_no_reset {P : State → Prop}
    (keep : ∀ {s t}, step s = .next t → (∀ rest, s.port ≠ .reset :: rest) → P s → P t) {n : Nat} {s t : State}
    (hr : HostEvent.reset ∉ s.port.take n) (h : core.run n s = .next t) (hs : P s) : P t := by
  induction n generalizing s with
  | zero => cases h; exact hs
  | succ n ih =>
    obtain ⟨u, hu, h⟩ := run_succ_next h
    obtain ⟨hnext, hrest⟩ := no_reset_after_step hu hr
    exact ih hrest h (keep hu hnext hs)

/-- INIT alone sets `B`, and it is refused in a configured block (10_state.md R22). -/
theorem Change.b_of_configured {i : Instr} {s t : State} (h : Change s i t) (hc : s.cfg = true) : t.b = s.b := by
  cases h with
  | answer => rfl
  | construct d hc' => simp [hc] at hc'
  | write => rfl

theorem step_b_of_configured {s t : State} (h : step s = .next t) (hc : s.cfg = true)
    (hr : ∀ rest, s.port ≠ .reset :: rest) : t.b = s.b := by
  rcases step_cases h with ⟨-, rfl⟩ | ⟨rest, hp, -⟩ | ⟨w, rest, e, -, -, rfl⟩ | ⟨w, rest, i, -, -, hch⟩
  · rfl
  · exact absurd hp (hr rest)
  · rfl
  · exact hch.b_of_configured hc

/-- A configured block stays configured with its precision until a reset (40_config.md R83). -/
theorem run_cfg_b_of_configured {n : Nat} {s t : State} (hr : HostEvent.reset ∉ s.port.take n)
    (h : core.run n s = .next t) (hc : s.cfg = true) : t.cfg = true ∧ t.b = s.b :=
  run_induction_of_no_reset (P := fun u => u.cfg = true ∧ u.b = s.b)
    (fun hstep hnext ⟨hcu, hbu⟩ =>
      ⟨step_stays_configured hstep hcu hnext, (step_b_of_configured hstep hcu hnext).trans hbu⟩)
    hr h ⟨hc, rfl⟩

/-- Settles O36: INIT stores the precision, the run keeps CFG and `B`, and GETB and `M` read `B`. -/
theorem precisionIsFixedFromInitToReset : Obligations.PrecisionIsFixedFromInitToReset := by
  intro b d n s u t hc h4 h16 hinit hr hrun
  rw [exec_init_of_legal hc ⟨h4, h16⟩] at hinit
  cases hinit
  obtain ⟨hct, hbt⟩ : t.cfg = true ∧ t.b = precisionBits b := run_cfg_b_of_configured hr hrun rfl
  refine ⟨?_, State.m_of_precision hbt h16⟩
  rw [exec_getb_of_configured hct, hbt, precisionBits_setWidth h16]

end Sys2Proof.Machine
end

section
/-! SUPPORT. The update path's obligations (41_update.md): IDX and RANK on each state, the state an UPDATE leaves, and what a
run of UPDATEs does to each register. -/

namespace Sys2Proof.Machine

/-! ## The index mux -/

theorem zext64_index_toNat (s : State) (v : Word) : (zext64 (s.index v)).toNat = s.index v :=
  zext64_toNat (((s.index_lt v).trans s.m_lt).trans (by decide))

/-- The index is the low `B` bits of the value (41_update.md R90). -/
theorem zext64_index_getLsbD (s : State) (v : Word) (i : Nat) :
    (zext64 (s.index v)).getLsbD i = (decide (i < s.b.toNat) && v.getLsbD i) :=
  calc (zext64 (s.index v)).getLsbD i
    _ = (s.index v).testBit i := congrArg (·.testBit i) (zext64_index_toNat s v)
    _ = (decide (i < s.b.toNat) && v.getLsbD i) := Nat.testBit_mod_two_pow v.toNat s.b.toNat i

/-- Settles O4: the one check, then the remainder modulo `2^B` read bit by bit. -/
theorem idxReturnsLowBits : Obligations.IdxReturnsLowBits := by
  refine fun v s => ⟨rfl, fun hc => requireConfigured_of_unconfigured hc _, fun hc => ?_⟩
  refine ⟨zext64 (s.index v), requireConfigured_of_configured hc _, zext64_index_getLsbD s v, ?_, zext64_index_toNat s v⟩
  exact (zext64_index_toNat s v).trans_lt (s.index_lt v)

/-! ## The rank path -/

theorem getLsbD_of_clzBelow_eq {x : Word} {n : Nat} (h : clzBelow x n = n) : ∀ i < n, x.getLsbD i = false := by
  induction n with
  | zero => simp
  | succ n ih =>
    rw [clzBelow] at h
    split at h
    · cases h
    · next hn =>
      intro i hi
      rcases Nat.lt_succ_iff_lt_or_eq.mp hi with hlt | rfl
      · exact ih (Nat.succ.inj h) i hlt
      · simpa using hn

/-- Only 0 has 64 leading zeros (00_scope.md R10). -/
theorem clz64_eq_64_iff (x : Word) : clz64 x = 64 ↔ x = 0#64 := by
  refine ⟨fun h => BitVec.eq_of_getLsbD_eq fun i hi => ?_, fun h => h ▸ clz64_zero⟩
  simpa using getLsbD_of_clzBelow_eq h i hi

/-- The rank with its subtraction moved across: nothing is cut off (41_update.md R91). -/
theorem State.rank_add_b (s : State) (v : Word) : s.rank v + s.b.toNat = clz64 (v >>> s.b.toNat) + 1 := by
  have := le_clz64_shift v (b := s.b.toNat) (by have := s.b_lt; omega)
  rw [State.rank]
  omega

/-- The largest rank is that of the values with no 1 bit from `B` upward (41_update.md R91, R96). -/
theorem State.rank_eq_bound_iff (s : State) (v : Word) : s.rank v = 65 - s.b.toNat ↔ v >>> s.b.toNat = 0#64 := by
  have := s.rank_add_b v
  have := s.b_lt
  rw [← clz64_eq_64_iff]
  omega

theorem State.rank_of_top {s : State} {v : Word} {q : Nat} (hq : q < 64) (hb : s.b.toNat ≤ q)
    (h1 : v.getLsbD q = true) (h0 : ∀ i, q < i → i < 64 → v.getLsbD i = false) : s.rank v = 64 - q := by
  have := s.rank_add_b v
  rw [clz64_shift_of_top hq hb h1 h0] at this
  omega

theorem shift_eq_zero {v : Word} {b : Nat} (h : ∀ i, b ≤ i → i < 64 → v.getLsbD i = false) : v >>> b = 0#64 := by
  refine BitVec.eq_of_getLsbD_eq fun i _ => ?_
  rw [BitVec.getLsbD_ushiftRight, BitVec.getLsbD_zero]
  rcases Nat.lt_or_ge (b + i) 64 with hlt | hge
  · exact h _ (Nat.le_add_right b i) hlt
  · exact BitVec.getLsbD_of_ge _ _ hge

theorem zext64_rank_toNat (s : State) (v : Word) : (zext64 (s.rank v)).toNat = s.rank v := by
  have := (s.rank_bounds v).2
  exact zext64_toNat (by omega)

/-- Settles O5: the one check, then the rank's formula, range and closed form. -/
theorem rankIsPositionOfFirstOne : Obligations.RankIsPositionOfFirstOne := by
  refine fun v s => ⟨rfl, fun hc => requireConfigured_of_unconfigured hc _, fun hc => ?_⟩
  refine ⟨zext64 (s.rank v), requireConfigured_of_configured hc _, ?_⟩
  rw [zext64_rank_toNat]
  obtain ⟨hpos, hle⟩ := s.rank_bounds v
  refine ⟨rfl, le_clz64_shift v (by have := s.b_lt; omega), s.rank_add_b v, hpos, hle, ?_, ?_⟩
  · exact fun q hq hb h1 h0 => State.rank_of_top hq hb h1 h0
  · exact fun h0 => (s.rank_eq_bound_iff v).mpr (shift_eq_zero h0)

/-! ## The state an UPDATE leaves -/

/-- The state an UPDATE of a configured block leaves (41_update.md R92). -/
def State.updated (s : State) (v : Word) : State :=
  State.respond
    { s with
      reg := if s.regVal (s.index v) < s.rank v then s.reg.write (s.index v) (BitVec.ofNat 6 (s.rank v)) else s.reg }
    .ok 0#64

@[simp] theorem State.updated_cfg (s : State) (v : Word) : (s.updated v).cfg = s.cfg := rfl
@[simp] theorem State.updated_b (s : State) (v : Word) : (s.updated v).b = s.b := rfl
@[simp] theorem State.updated_port (s : State) (v : Word) : (s.updated v).port = s.port := rfl
@[simp] theorem State.updated_responses (s : State) (v : Word) :
    (s.updated v).responses = s.responses ++ [{ status := .ok, result := 0#64 }] := rfl
@[simp] theorem State.updated_index (s : State) (v x : Word) : (s.updated v).index x = s.index x := rfl
@[simp] theorem State.updated_rank (s : State) (v x : Word) : (s.updated v).rank x = s.rank x := rfl

theorem State.updated_reg_of_rank_le {s : State} {v : Word} (h : s.rank v ≤ s.regVal (s.index v)) :
    (s.updated v).reg = s.reg := if_neg (Nat.not_lt.mpr h)

theorem State.updated_reg_of_lt_rank {s : State} {v : Word} (h : s.regVal (s.index v) < s.rank v) :
    (s.updated v).reg = s.reg.write (s.index v) (BitVec.ofNat 6 (s.rank v)) := if_pos h

/-- The selected register takes the maximum, and every other one is as before (41_update.md R92, R93). -/
theorem State.updated_regVal {s : State} (hb : 2 ≤ s.b.toNat) (v : Word) (j : Nat) :
    (s.updated v).regVal j = if j = s.index v then max (s.regVal j) (s.rank v) else s.regVal j := by
  rcases Nat.lt_or_ge (s.regVal (s.index v)) (s.rank v) with hlt | hle
  · rw [State.regVal, State.updated_reg_of_lt_rank hlt, regVal_write_rank hb]
    split
    · next hj => rw [hj, max_eq_right hlt.le]
    · rfl
  · rw [State.regVal, State.updated_reg_of_rank_le hle, ← State.regVal]
    split
    · next hj => rw [hj, max_eq_left hle]
    · rfl

theorem exec_update_of_index_lt {s : State} {v : Word} (hc : s.cfg = true) (hj : s.index v < Config.mMax) :
    exec (.update v) s = .next (s.updated v) := by
  rcases Nat.lt_or_ge (s.regVal (s.index v)) (s.rank v) with hlt | hle
  · calc exec (.update v) s
      _ = withEntry s (s.index v) _ := requireConfigured_of_configured hc _
      _ = _ := withEntry_of_lt hj _
      _ = _ := if_pos hlt
      _ = .next (s.updated v) := by rw [State.updated, if_pos hlt]; rfl
  · rw [exec_update_of_rank_le hc hj hle, State.updated, if_neg (Nat.not_lt.mpr hle)]

/-- Every index of a legal precision has its entry (00_scope.md R8). -/
theorem exec_update_of_precision {s : State} (hc : s.cfg = true) (hb : s.b.toNat ≤ 16) (v : Word) :
    exec (.update v) s = .next (s.updated v) :=
  exec_update_of_index_lt hc ((s.index_lt v).trans_le (State.m_le_mMax hb))

theorem State.Legal.exec_update {s : State} (hl : s.Legal) (hc : s.cfg = true) (v : Word) :
    exec (.update v) s = .next (s.updated v) :=
  exec_update_of_precision hc (hl.precision hc).2 v

theorem State.Legal.updated {s : State} (hl : s.Legal) (hc : s.cfg = true) (v : Word) : (s.updated v).Legal :=
  (exec_cases (hl.exec_update hc v)).legal hl

theorem State.Legal.updated_regVal {s : State} (hl : s.Legal) (hc : s.cfg = true) (v : Word) (j : Nat) :
    (s.updated v).regVal j = if j = s.index v then max (s.regVal j) (s.rank v) else s.regVal j :=
  State.updated_regVal (le_trans (by decide) (hl.precision hc).1) v j

/-- Settles O6: the state an UPDATE leaves, field by field, with the selected register read after the maximum. -/
theorem updateTakesTheMaximum : Obligations.UpdateTakesTheMaximum := by
  refine fun v s => ⟨rfl, fun hc => requireConfigured_of_unconfigured hc _, fun hc h4 h16 => ?_⟩
  have hreg := State.updated_regVal (s := s) (le_trans (by decide) h4) v
  have hmax : (s.updated v).regVal (s.index v) = max (s.regVal (s.index v)) (s.rank v) := (hreg _).trans (if_pos rfl)
  obtain ⟨hpos, hle⟩ := s.rank_bounds v
  exact ⟨s.updated v, exec_update_of_precision hc h16 v, hmax, State.updated_reg_of_rank_le,
    fun j hj => (hreg j).trans (if_neg hj), hmax ▸ le_max_of_le_right hpos, fun hr => hmax ▸ max_le hr hle,
    rfl, rfl, rfl, rfl⟩

/-- Settles O28: an UPDATE only answers, or it writes the register of its index. -/
theorem updateChangesAtMostOneRegister : Obligations.UpdateChangesAtMostOneRegister := by
  intro v s t h
  cases exec_cases h with
  | answer => exact ⟨rfl, rfl, rfl, ⟨_, rfl⟩, fun _ _ => rfl⟩
  | write =>
    exact ⟨rfl, rfl, rfl, ⟨_, rfl⟩, fun _ hj => congrArg BitVec.toNat (RegFile.read_write_other _ _ hj)⟩

/-! ## The bound -/

/-- A register holds 0 or is listed, and a listed one is within the bound (41_update.md R96). -/
theorem State.Legal.regVal_le {s : State} (hl : s.Legal) (hc : s.cfg = true) (j : Nat) :
    s.regVal j ≤ 65 - s.b.toNat := by
  by_cases hz : s.reg.read j = 0#6
  · simp [State.regVal, hz]
  · obtain ⟨-, hcells⟩ := hl
    obtain ⟨-, -, hentries⟩ := hcells hc
    exact (hentries _ (RegFile.mem_of_read_ne hz)).2

/-- Settles O38: the bound of a legal state, and the one rank that brings a register to it. -/
theorem registersAreBounded : Obligations.RegistersAreBounded := by
  refine fun s hl hc => ⟨hl.regVal_le hc, fun v t j h hbefore hafter => ?_⟩
  rw [hl.exec_update hc] at h
  cases h
  rw [hl.updated_regVal hc] at hafter
  split at hafter
  · refine (s.rank_eq_bound_iff v).mp ?_
    rcases max_choice (s.regVal j) (s.rank v) with hmax | hmax <;> rw [hmax] at hafter
    · exact absurd hafter hbefore
    · exact hafter
  · exact absurd hafter hbefore

/-! ## A zero register has never been selected (41_update.md R95) -/

/-- No UPDATE among the host's moves selects register `j` of a block with the precision of `s`. -/
def Unselected (s : State) (moves : List HostEvent) (j : Nat) : Prop :=
  ∀ w v, HostEvent.command w ∈ moves → decode w = .ok (.update v) → s.index v ≠ j

theorem unselected_nil (s : State) (j : Nat) : Unselected s [] j := fun _ _ h => absurd h List.not_mem_nil

theorem unselected_append {s : State} {moves later : List HostEvent} {j : Nat} :
    Unselected s (moves ++ later) j ↔ Unselected s moves j ∧ Unselected s later j := by
  simp only [Unselected, List.mem_append, or_imp, forall_and]

theorem unselected_command {s : State} {w : CommandWord} {j : Nat} :
    Unselected s [.command w] j ↔ ∀ v, decode w = .ok (.update v) → s.index v ≠ j := by
  refine ⟨fun h v => h w v List.mem_cons_self, fun h w' v hw => ?_⟩
  cases List.mem_singleton.mp hw
  exact h v

theorem Unselected.of_b {s t : State} (hb : t.b = s.b) {moves : List HostEvent} {j : Nat} :
    Unselected t moves j ↔ Unselected s moves j := by
  simp only [Unselected, State.index_of_b hb]

/-- In a configured block UPDATE alone changes a register. -/
theorem exec_reg_of_ne_update {i : Instr} {s t : State} (h : exec i s = .next t) (hc : s.cfg = true)
    (hi : ∀ v, i ≠ .update v) : t.reg = s.reg := by
  cases exec_cases h with
  | answer => rfl
  | construct d hc' => simp [hc] at hc'
  | write v => exact absurd rfl (hi v)

/-- A command leaves a register 0 exactly when it was 0 and the command is no UPDATE that selects it, since a rank is at
least 1. -/
theorem exec_regVal_eq_zero_iff {i : Instr} {s t : State} (h : exec i s = .next t) (hl : s.Legal) (hc : s.cfg = true)
    (j : Nat) : t.regVal j = 0 ↔ s.regVal j = 0 ∧ ∀ v, i = .update v → s.index v ≠ j := by
  by_cases hi : ∃ v, i = .update v
  · obtain ⟨v, rfl⟩ := hi
    rw [hl.exec_update hc] at h
    cases h
    rw [hl.updated_regVal hc]
    by_cases hj : j = s.index v
    · simp [hj, Nat.ne_of_gt (s.rank_bounds v).1]
    · simp [hj, Ne.symm hj]
  · have hreg : t.regVal j = s.regVal j :=
      congrArg (fun f => (RegFile.read f j).toNat) (exec_reg_of_ne_update h hc (not_exists.mp hi))
    rw [hreg]
    exact ⟨fun hz => ⟨hz, fun v hv => absurd ⟨v, hv⟩ hi⟩, And.left⟩

theorem step_regVal_eq_zero_iff {s t : State} (h : step s = .next t) (hl : s.Legal) (hc : s.cfg = true)
    (hr : ∀ rest, s.port ≠ .reset :: rest) (j : Nat) :
    t.regVal j = 0 ↔ s.regVal j = 0 ∧ Unselected s (s.port.take 1) j := by
  rcases hp : s.port with _ | ⟨_ | _, rest⟩
  · rw [step_idle hp] at h
    cases h
    simp [unselected_nil]
  · next w =>
    rw [List.take_succ_cons, List.take_zero, unselected_command]
    rcases hd : decode w with e | i
    · rw [step_reserved hp hd] at h
      cases h
      exact (and_iff_left fun _ hv => by cases hv).symm
    · rw [step_command hp hd] at h
      simp only [Except.ok.injEq]
      exact exec_regVal_eq_zero_iff h (hl.of_sameBlock ⟨rfl, rfl, rfl⟩) hc j
  · exact absurd hp (hr rest)

/-- The moves of `n + 1` steps are the first step's and those of the `n` steps after it. -/
theorem unselected_take_succ {n : Nat} {s t : State} (h : step s = .next t) (j : Nat) :
    Unselected s (s.port.take (n + 1)) j ↔ Unselected s (s.port.take 1) j ∧ Unselected s (t.port.take n) j := by
  rw [step_port h, ← List.drop_one, Nat.add_comm, List.take_add, unselected_append]

theorem run_regVal_eq_zero_iff {n : Nat} {s t : State} (hl : s.Legal) (hc : s.cfg = true)
    (hr : HostEvent.reset ∉ s.port.take n) (h : core.run n s = .next t) (j : Nat) :
    t.regVal j = 0 ↔ s.regVal j = 0 ∧ Unselected s (s.port.take n) j := by
  induction n generalizing s with
  | zero =>
    cases h
    simp [unselected_nil]
  | succ n ih =>
    obtain ⟨u, hu, h⟩ := run_succ_next h
    obtain ⟨hnext, hrest⟩ := no_reset_after_step hu hr
    calc t.regVal j = 0
      _ ↔ u.regVal j = 0 ∧ Unselected u (u.port.take n) j :=
        ih (step_legal hu hl) (step_stays_configured hu hc hnext) hrest h
      _ ↔ (s.regVal j = 0 ∧ Unselected s (s.port.take 1) j) ∧ Unselected s (u.port.take n) j := by
        rw [step_regVal_eq_zero_iff hu hl hc hnext, Unselected.of_b (step_b_of_configured hu hc hnext)]
      _ ↔ s.regVal j = 0 ∧ Unselected s (s.port.take (n + 1)) j := by
        rw [and_assoc, ← unselected_take_succ hu]

/-- Settles O39: INIT leaves every register 0, and a run keeps one at 0 exactly while no UPDATE selects it. -/
theorem zeroExactlyWhenNeverSelected : Obligations.ZeroExactlyWhenNeverSelected := by
  intro b n s u t hc h4 h16 hinit hr hrun j _
  rw [exec_init_of_legal hc ⟨h4, h16⟩] at hinit
  cases hinit
  have hzero : (s.initialized b).regVal j = 0 := rfl
  exact (run_regVal_eq_zero_iff (s.initialized_legal ⟨h4, h16⟩) rfl hr hrun j).trans (and_iff_right hzero)

/-! ## Sequences of UPDATEs (41_update.md R94) -/

/-- The state a sequence of UPDATEs of a configured block leaves. -/
def State.updatedAll (s : State) (vs : List Word) : State := vs.foldl State.updated s

theorem State.updatedAll_cfg (s : State) (vs : List Word) : (s.updatedAll vs).cfg = s.cfg := by
  induction vs generalizing s with
  | nil => rfl
  | cons v vs ih => exact ih (s.updated v)

theorem State.updatedAll_b (s : State) (vs : List Word) : (s.updatedAll vs).b = s.b := by
  induction vs generalizing s with
  | nil => rfl
  | cons v vs ih => exact ih (s.updated v)

theorem State.Legal.updatedAll {s : State} (hl : s.Legal) (hc : s.cfg = true) (vs : List Word) :
    (s.updatedAll vs).Legal := by
  induction vs generalizing s with
  | nil => exact hl
  | cons v vs ih => exact ih (hl.updated hc v) hc

theorem State.Legal.execAll_updates {s : State} (hl : s.Legal) (hc : s.cfg = true) (vs : List Word) :
    execAll (vs.map Instr.update) s = .next (s.updatedAll vs) := by
  induction vs generalizing s with
  | nil => rfl
  | cons v vs ih =>
    rw [List.map_cons, execAll, hl.exec_update hc]
    exact ih (hl.updated hc v) hc

/-- The ranks of the values that select register `j`, in the order sent. -/
def State.ranksAt (s : State) (vs : List Word) (j : Nat) : List Nat :=
  (vs.filter fun v => s.index v == j).map s.rank

theorem State.ranksAt_cons (s : State) (v : Word) (vs : List Word) (j : Nat) :
    s.ranksAt (v :: vs) j = if s.index v = j then s.rank v :: s.ranksAt vs j else s.ranksAt vs j := by
  by_cases hj : s.index v = j <;> simp [State.ranksAt, hj]

/-- After a sequence of UPDATEs a register holds the maximum of what it held and the ranks that reached it. -/
theorem State.Legal.updatedAll_regVal {s : State} (hl : s.Legal) (hc : s.cfg = true) (vs : List Word) (j : Nat) :
    (s.updatedAll vs).regVal j = (s.ranksAt vs j).foldr max (s.regVal j) := by
  induction vs generalizing s with
  | nil => rfl
  | cons v vs ih =>
    calc (s.updatedAll (v :: vs)).regVal j
      _ = (s.ranksAt vs j).foldr max ((s.updated v).regVal j) := ih (hl.updated hc v) hc
      _ = (s.ranksAt (v :: vs) j).foldr max (s.regVal j) := by
        rw [hl.updated_regVal hc, State.ranksAt_cons]
        by_cases hj : s.index v = j
        · rw [if_pos hj, if_pos hj.symm, List.foldr_assoc, List.foldr_cons, max_comm]
        · rw [if_neg hj, if_neg (Ne.symm hj)]

theorem foldr_max_le_iff {a n : Nat} {rs : List Nat} : rs.foldr max a ≤ n ↔ a ≤ n ∧ ∀ r ∈ rs, r ≤ n := by
  induction rs with
  | nil => simp
  | cons r rs ih => simp [ih, and_left_comm]

/-- A bound holds after a sequence of UPDATEs exactly when it held before and every rank that reached the register keeps
it: the order and the number of the UPDATEs do not matter. -/
theorem State.Legal.updatedAll_regVal_le_iff {s : State} (hl : s.Legal) (hc : s.cfg = true) {vs : List Word}
    {j n : Nat} : (s.updatedAll vs).regVal j ≤ n ↔ s.regVal j ≤ n ∧ ∀ v ∈ vs, s.index v = j → s.rank v ≤ n := by
  simp only [hl.updatedAll_regVal hc, foldr_max_le_iff, State.ranksAt, List.forall_mem_map, List.mem_filter,
    beq_iff_eq, and_imp]

theorem State.Legal.updatedAll_reg_eq {s : State} (hl : s.Legal) (hc : s.cfg = true) {vs ws : List Word}
    (hset : ∀ v, v ∈ vs ↔ v ∈ ws) : (s.updatedAll vs).reg = (s.updatedAll ws).reg := by
  refine RegFile.eq_of_read_eq (hl.updatedAll hc vs).1 (hl.updatedAll hc ws).1 fun j => BitVec.eq_of_toNat_eq ?_
  refine eq_of_forall_ge_iff (a := (s.updatedAll vs).regVal j) (b := (s.updatedAll ws).regVal j) fun n => ?_
  simp only [hl.updatedAll_regVal_le_iff hc, hset]

theorem State.Legal.rank_le_updatedAll_regVal {s : State} (hl : s.Legal) (hc : s.cfg = true) {vs : List Word} {v : Word}
    (hv : v ∈ vs) : s.rank v ≤ (s.updatedAll vs).regVal (s.index v) :=
  ((hl.updatedAll_regVal_le_iff hc).mp le_rfl).2 v hv rfl

/-- Settles O40: each register is the maximum of what reached it, which the set of values alone decides. -/
theorem updateOrderAndRepetitionDoNotMatter : Obligations.UpdateOrderAndRepetitionDoNotMatter := by
  intro vs ws s hl hc hset
  refine ⟨s.updatedAll vs, s.updatedAll ws, hl.execAll_updates hc vs, hl.execAll_updates hc ws,
    hl.updatedAll_reg_eq hc hset, hl.updatedAll_regVal hc vs, fun v hv => ?_⟩
  have hrank := hl.rank_le_updatedAll_regVal hc hv
  refine ⟨hrank, _, (hl.updatedAll hc vs).exec_update ((s.updatedAll_cfg vs).trans hc) v,
    State.updated_reg_of_rank_le ?_⟩
  rwa [State.rank_of_b (s.updatedAll_b vs), State.index_of_b (s.updatedAll_b vs)]

end Sys2Proof.Machine
end

section
/-! SUPPORT. The readout commands' obligations (42_readout.md): READREG on each index, and NUMZEROS and HISTBIN as
entries of one histogram of the visible registers, `State.numHolding`. -/

namespace Sys2Proof.Machine

/-! ## READREG -/

theorem exec_readreg_of_lt {s : State} {j : Word} (hc : s.cfg = true) (hb : s.b.toNat ≤ 16) (hj : j.toNat < s.m) :
    exec (.readreg j) s = .next (s.respond .ok ((s.reg.read j.toNat).setWidth 64)) :=
  calc exec (.readreg j) s
    _ = requireIndex s j _ := requireConfigured_of_configured hc _
    _ = withEntry s j.toNat _ := requireIndex_of_lt hj _
    _ = .next (s.respond .ok (zext64 (s.reg.read j.toNat).toNat)) :=
      withEntry_of_lt (hj.trans_le (State.m_le_mMax hb)) _
    _ = .next (s.respond .ok ((s.reg.read j.toNat).setWidth 64)) := by rw [zext64_reg]

theorem exec_readreg_of_le {s : State} {j : Word} (hc : s.cfg = true) (hj : s.m ≤ j.toNat) :
    exec (.readreg j) s = .next (s.respond .errIndexRange 0#64) :=
  (requireConfigured_of_configured hc _).trans (requireIndex_of_le hj _)

/-- Settles O7: READREG's two checks in order, the register on its own, and the bound every legal register has. -/
theorem readregReturnsOneRegister : Obligations.ReadregReturnsOneRegister := fun j _ =>
  ⟨rfl, fun hc => requireConfigured_of_unconfigured hc _, exec_readreg_of_le, exec_readreg_of_lt,
    fun hl hc => hl.regVal_le hc j.toNat⟩

/-! ## The histogram of the visible registers -/

/-- How many visible registers hold exactly `k`: the number HISTBIN returns (42_readout.md R102). -/
def State.numHolding (s : State) (k : Nat) : Nat := ((Finset.range s.m).filter fun j => s.regVal j = k).card

theorem State.countBelow_holdsValue (s : State) (k : Word) :
    s.reg.countBelow (holdsValue k) s.m = s.numHolding k.toNat := by
  simp only [RegFile.countBelow_eq_card, holdsValue_iff, State.numHolding]

theorem State.numHolding_le (s : State) (k : Nat) : s.numHolding k ≤ s.m :=
  (Finset.card_filter_le _ _).trans_eq (Finset.card_range s.m)

theorem zext64_numHolding_toNat (s : State) (k : Nat) : (zext64 (s.numHolding k)).toNat = s.numHolding k :=
  zext64_toNat (((s.numHolding_le k).trans_lt s.m_lt).trans (by decide))

/-- No register of a legal block holds more than `65 - B` (41_update.md R96). -/
theorem State.Legal.numHolding_eq_zero {s : State} (hl : s.Legal) (hc : s.cfg = true) {k : Nat}
    (hk : 65 - s.b.toNat < k) : s.numHolding k = 0 :=
  Finset.card_filter_eq_zero_iff.mpr fun j _ => ((hl.regVal_le hc j).trans_lt hk).ne

/-- Each visible register of a legal block is counted at one value of `0 .. 65-B` (42_readout.md R103). -/
theorem State.Legal.sum_numHolding {s : State} (hl : s.Legal) (hc : s.cfg = true) :
    ∑ k ∈ Finset.range (66 - s.b.toNat), s.numHolding k = s.m := by
  have bounded : ∀ j ∈ Finset.range s.m, s.regVal j ∈ Finset.range (66 - s.b.toNat) := fun j _ => by
    have := hl.regVal_le hc j
    have := s.b_lt
    rw [Finset.mem_range]
    omega
  calc ∑ k ∈ Finset.range (66 - s.b.toNat), s.numHolding k
    _ = (Finset.range s.m).card := (Finset.card_eq_sum_card_fiberwise bounded).symm
    _ = s.m := Finset.card_range s.m

/-! ## HISTBIN and NUMZEROS -/

theorem exec_histbin_of_configured {s : State} (hc : s.cfg = true) (hb : s.b.toNat ≤ 16) (k : Word) :
    exec (.histbin k) s = .next (s.respond .ok (zext64 (s.numHolding k.toNat))) :=
  calc exec (.histbin k) s
    _ = withEntriesBelow s.m _ := requireConfigured_of_configured hc _
    _ = .next (s.respond .ok (zext64 (s.reg.countBelow (holdsValue k) s.m))) :=
      withEntriesBelow_of_le (State.m_le_mMax hb) _
    _ = .next (s.respond .ok (zext64 (s.numHolding k.toNat))) := by rw [State.countBelow_holdsValue]

/-- A register is 0 exactly when its zero-extension is (42_readout.md R104). -/
theorem holdsValue_zero : holdsValue 0#64 = isZeroReg := by
  funext r
  have hr : (zext64 r.toNat).toNat = r.toNat := zext64_toNat (r.isLt.trans (by decide))
  rw [holdsValue, isZeroReg, Bool.eq_iff_iff, beq_iff_eq, beq_iff_eq, ← BitVec.toNat_inj, ← BitVec.toNat_inj, hr]
  rfl

/-- Settles O43: the two commands differ in the test of a register alone, and at 0 the tests are equal. -/
theorem histbinZeroIsNumzeros : Obligations.HistbinZeroIsNumzeros := fun d s => by
  change execHistbin 0#64 s = execNumzeros d s
  rw [execHistbin, execNumzeros, holdsValue_zero]

theorem exec_numzeros_of_configured {s : State} (hc : s.cfg = true) (hb : s.b.toNat ≤ 16) (d : Word) :
    exec (.numzeros d) s = .next (s.respond .ok (zext64 (s.numHolding 0))) :=
  (histbinZeroIsNumzeros d s).symm.trans (exec_histbin_of_configured hc hb 0#64)

/-- Settles O8: NUMZEROS's one check, and the histogram at 0. -/
theorem numzerosCountsZeroRegisters : Obligations.NumzerosCountsZeroRegisters := fun d s =>
  ⟨rfl, fun hc => requireConfigured_of_unconfigured hc _, fun hc hb =>
    ⟨_, exec_numzeros_of_configured hc hb d, zext64_numHolding_toNat s 0,
      (zext64_numHolding_toNat s 0).trans_le (s.numHolding_le 0)⟩⟩

/-- Settles O9: HISTBIN's one check, and the histogram at `k`, which is empty above the bound on registers. -/
theorem histbinCountsRegistersHoldingK : Obligations.HistbinCountsRegistersHoldingK := by
  refine fun k s => ⟨rfl, fun hc => requireConfigured_of_unconfigured hc _, fun hc hb => ?_⟩
  refine ⟨_, exec_histbin_of_configured hc hb k, zext64_numHolding_toNat s k.toNat,
    (zext64_numHolding_toNat s k.toNat).trans_le (s.numHolding_le k.toNat), fun hl hk => ?_⟩
  exact congrArg zext64 (hl.numHolding_eq_zero hc hk)

/-- Settles O42: the results are the histogram's entries, and every `k` asked for fits DATA. -/
theorem histogramMassIsConserved : Obligations.HistogramMassIsConserved := by
  refine fun s hl hc => ⟨fun k => zext64 (s.numHolding k), fun k hk => ?_, ?_⟩
  · have hword : (BitVec.ofNat 64 k).toNat = k := zext64_toNat (by omega)
    rw [exec_histbin_of_configured hc (hl.precision hc).2, hword]
  · simpa only [zext64_numHolding_toNat] using hl.sum_numHolding hc

end Sys2Proof.Machine
end

section
/-! SUPPORT. The bit-counting commands' obligations (43_bitcount.md): CLZ64 and POPCNT64 in every state, and the smear that
turns a population count into a leading-zero count. -/

namespace Sys2Proof.Machine

/-! ## CLZ64 -/

theorem exec_clz64 (x : Word) (s : State) : exec (.clz64 x) s = .next (s.respond .ok (zext64 (clz64 x))) := rfl

theorem zext64_clz64_toNat (x : Word) : (zext64 (clz64 x)).toNat = clz64 x :=
  zext64_toNat ((clz64_le x).trans_lt (by decide))

/-- Settles O10: the answer is the count itself, known at 0 and from the highest 1 bit. -/
theorem clzCountsLeadingZeros : Obligations.ClzCountsLeadingZeros := by
  refine fun x s => ⟨rfl, _, exec_clz64 x s, ?_⟩
  rw [zext64_clz64_toNat]
  exact ⟨clz64_le x, (clz64_eq_64_iff x).mpr, fun _ hq h1 h0 => clz64_of_top hq h1 h0⟩

/-! ## POPCNT64 -/

theorem exec_popcnt64 (x : Word) (s : State) :
    exec (.popcnt64 x) s = .next (s.respond .ok (zext64 (popcount64 x))) := rfl

theorem popcount64_le (x : Word) : popcount64 x ≤ 64 := onesBelow_le x 64

theorem zext64_popcount64_toNat (x : Word) : (zext64 (popcount64 x)).toNat = popcount64 x :=
  zext64_toNat ((popcount64_le x).trans_lt (by decide))

/-- Settles O11: the answer is the count itself, which is the number of positions of 1 bits. -/
theorem popcntCountsOneBits : Obligations.PopcntCountsOneBits := by
  refine fun x s => ⟨rfl, _, exec_popcnt64 x s, ?_⟩
  rw [zext64_popcount64_toNat]
  exact ⟨popcount64_le x, onesBelow_eq_card x 64⟩

/-! ## The smear (43_bitcount.md R112) -/

/-- `y` is `x` smeared over `w` positions: bit `i` of `y` is the OR of the bits `i .. i+w-1` of `x`. -/
def Smeared (x y : Word) (w : Nat) : Prop := ∀ i, y.getLsbD i = true ↔ ∃ k < w, x.getLsbD (i + k) = true

theorem Smeared.self (x : Word) : Smeared x x 1 := fun i => by simp

/-- One OR with the right shift by the width so far doubles the width. -/
theorem Smeared.double {x y : Word} {w : Nat} (h : Smeared x y w) : Smeared x (y ||| y >>> w) (w + w) := by
  intro i
  rw [BitVec.getLsbD_or, BitVec.getLsbD_ushiftRight, Bool.or_eq_true, h, h]
  constructor
  · rintro (⟨k, hk, hx⟩ | ⟨k, hk, hx⟩)
    · exact ⟨k, by omega, hx⟩
    · exact ⟨w + k, by omega, by rwa [← Nat.add_assoc, Nat.add_comm i w]⟩
  · rintro ⟨k, hk, hx⟩
    rcases Nat.lt_or_ge k w with hlt | hge
    · exact .inl ⟨k, hlt, hx⟩
    · exact .inr ⟨k - w, by omega, by rwa [show w + i + (k - w) = i + k by omega]⟩

/-- Smeared over all 64 positions, a bit is 1 exactly when `x` has a 1 bit there or above. -/
theorem Smeared.getLsbD_iff {x y : Word} (h : Smeared x y 64) (i : Nat) :
    y.getLsbD i = true ↔ ∃ j, i ≤ j ∧ x.getLsbD j = true := by
  refine (h i).trans ⟨fun ⟨k, _, hx⟩ => ⟨i + k, Nat.le_add_right i k, hx⟩, fun ⟨j, hij, hx⟩ => ?_⟩
  have hj : j < 64 := BitVec.lt_of_getLsbD hx
  exact ⟨j - i, by omega, by rwa [Nat.add_sub_cancel' hij]⟩

theorem onesBelow_eq_zero {x : Word} {n : Nat} (h : ∀ i < n, x.getLsbD i = false) : onesBelow x n = 0 := by
  rw [onesBelow_eq_card, Finset.card_filter_eq_zero_iff]
  exact fun i hi => by simp [h i (Finset.mem_range.mp hi)]

/-- With no 1 bit of `x` from `n` upward, the leading-zero loop counts the 0 bits of the smear: at the highest 1 bit of
`x` the loop stops, and the smear is 1 from there down. -/
theorem Smeared.clzBelow_eq {x y : Word} (h : Smeared x y 64) {n : Nat} (hn : n ≤ 64)
    (h0 : ∀ j, n ≤ j → x.getLsbD j = false) : clzBelow x n = onesBelow (~~~ y) n := by
  induction n with
  | zero => rfl
  | succ n ih =>
    by_cases hx : x.getLsbD n = true
    · have filled : ∀ i < n + 1, (~~~ y).getLsbD i = false := fun i hi => by
        simp [(h.getLsbD_iff i).mpr ⟨n, Nat.le_of_lt_succ hi, hx⟩]
      rw [clzBelow, if_pos hx, onesBelow_eq_zero filled]
    · have above : ∀ j, n ≤ j → x.getLsbD j = false := fun j hj => by
        rcases Nat.eq_or_lt_of_le hj with rfl | hlt
        · exact Bool.eq_false_of_not_eq_true hx
        · exact h0 j hlt
      have empty : y.getLsbD n = false := Bool.eq_false_of_not_eq_true fun hy => by
        obtain ⟨j, hj, hxj⟩ := (h.getLsbD_iff n).mp hy
        simp [above j hj] at hxj
      have counted : (~~~ y).getLsbD n = true := by
        rw [BitVec.getLsbD_not, empty, decide_eq_true (Nat.lt_of_succ_le hn)]
        rfl
      rw [clzBelow, if_neg hx, onesBelow, if_pos counted, ih (by omega) above]

/-- Settles O12: six doublings smear `x` over all 64 positions, and the 0 bits left are its leading zeros. -/
theorem clzIsPopcountOfComplementedSmear : Obligations.ClzIsPopcountOfComplementedSmear := by
  intro x y1 y2 y4 y8 y16 y32
  have smeared : Smeared x y32 64 := (Smeared.self x).double.double.double.double.double.double
  exact smeared.clzBelow_eq le_rfl fun j hj => BitVec.getLsbD_of_ge x j hj

end Sys2Proof.Machine
end

section
/-! SUPPORT. The host side's obligations (48_host_side.md): what the host reads out of a legal configured block, then the
estimator's formulas under exact real arithmetic. -/

namespace Sys2Proof.Machine

/-! ## The host's reads -/

/-- A command that only answers `OK` gives that answer after any earlier response too, since it sees the block alone. -/
theorem exec_ok_after_respond {i : Instr} {s : State} {r : Word} (h : exec i s = .next (s.respond .ok r)) (st : Status)
    (q : Word) : exec i (s.respond st q) = .next ((s.respond st q).respond .ok r) := by
  obtain ⟨r', hr', hends⟩ := exec_seesOnlyBlock i s _ h
  obtain rfl : (⟨.ok, r⟩ : Response) = r' := by simpa using hr'
  exact hends s.port (s.respond st q).responses

section
variable {α : Type} {s : State} {i : α → Instr} {r : α → Word} {xs : List α}

theorem answers_map (h : ∀ x ∈ xs, exec (i x) s = .next (s.respond .ok (r x))) :
    answers s (xs.map i) = xs.map fun x => ⟨.ok, r x⟩ := by
  induction xs generalizing s with
  | nil => rfl
  | cons x xs ih =>
    have hrest := ih fun y hy => exec_ok_after_respond (h y (List.mem_cons_of_mem x hy)) .ok (r x)
    simp only [List.map_cons, answers, h x List.mem_cons_self, hrest, State.respond_responses, List.drop_left,
      List.singleton_append]

theorem mapM_value_of_ok (xs : List α) :
    (xs.map fun x => (⟨.ok, r x⟩ : Response)).mapM Response.value = some (xs.map fun x => (r x).toNat) := by
  induction xs with
  | nil => rfl
  | cons x xs ih => simp [List.mapM_cons, ih, Response.value]

/-- Commands that only answer `OK` can be sent one after another, and the host reads the RESULT of each. -/
theorem results_map (h : ∀ x ∈ xs, exec (i x) s = .next (s.respond .ok (r x))) :
    results s (xs.map i) = some (xs.map fun x => (r x).toNat) := by
  rw [results, answers_map h, mapM_value_of_ok]

end

theorem resultOf_of_ok {i : Instr} {s : State} {r : Word} (h : exec i s = .next (s.respond .ok r)) :
    resultOf s i = some r.toNat := by
  have hone : results s [i] = some [r.toNat] := results_map (i := id) (r := fun _ => r) (xs := [i]) (by simpa using h)
  rw [resultOf, hone]
  rfl

theorem resultOf_getb {s : State} (hc : s.cfg = true) : resultOf s (.getb 0#64) = some s.b.toNat := by
  rw [resultOf_of_ok (exec_getb_of_configured hc _), BitVec.toNat_setWidth_of_le (by decide)]

section
variable {s : State} (hl : s.Legal) (hc : s.cfg = true)
include hl hc

theorem State.Legal.resultOf_numzeros : resultOf s (.numzeros 0#64) = some (s.numHolding 0) := by
  rw [resultOf_of_ok (exec_numzeros_of_configured hc (hl.precision hc).2 _), zext64_numHolding_toNat]

theorem State.Legal.results_readAllRegs : results s (readAllRegs s.m) = some ((List.range s.m).map s.regVal) := by
  refine results_map (r := fun j => (s.reg.read j).setWidth 64) fun j hj => ?_
  have hj : j < s.m := List.mem_range.mp hj
  have hword : (BitVec.ofNat 64 j).toNat = j := zext64_toNat (hj.trans (s.m_lt.trans (by decide)))
  rw [exec_readreg_of_lt hc (hl.precision hc).2 (hword.trans_lt hj), hword]

theorem State.Legal.results_readAllBins :
    results s (readAllBins s.b.toNat) = some ((List.range (66 - s.b.toNat)).map s.numHolding) := by
  rw [readAllBins, results_map (r := fun k => zext64 (s.numHolding k)) fun k hk => ?_]
  · simp only [zext64_numHolding_toNat]
  · have hword : (BitVec.ofNat 64 k).toNat = k := zext64_toNat (by have := List.mem_range.mp hk; omega)
    rw [exec_histbin_of_configured hc (hl.precision hc).2, hword]

/-! ## What the host computes from them, for every `HostFloat` -/

theorem State.Legal.rawEstimate_eq {F : Type} (hf : HostFloat F) :
    rawEstimate hf s = some (rawFromRegs hf s.m ((List.range s.m).map s.regVal)) := by
  simp only [rawEstimate, resultOf_getb hc]
  exact congrArg (Option.map _) (hl.results_readAllRegs hc)

theorem State.Legal.estimate_eq {F : Type} (hf : HostFloat F) :
    estimate hf s =
      some (correct hf s.m (s.numHolding 0) (rawFromRegs hf s.m ((List.range s.m).map s.regVal))) := by
  simp only [estimate, resultOf_getb hc, hl.rawEstimate_eq hc, hl.resultOf_numzeros hc, State.m]

theorem State.Legal.histogram_eq :
    histogram s =
      some (((List.range (66 - s.b.toNat)).map fun k => (k, s.numHolding k)).filter fun kc => kc.2 != 0) := by
  simp only [histogram, resultOf_getb hc, hl.results_readAllBins hc, Option.map_some, List.map_prod_left_eq_zip]

end

/-- Settles O47: GETB gives `M` and the READREGs the visible registers, which is all the raw estimate is computed from. -/
theorem rawEstimateReadsEveryRegister : Obligations.RawEstimateReadsEveryRegister := by
  intro F hf s hl hc
  rw [hl.rawEstimate_eq hc, rawFromRegs, List.map_map]
  rfl

/-! ## The histogram -/

/-- Settles O50: a value held by a visible register is at most `65 - B`, so it is among the bins; a dropped bin counts 0. -/
theorem histogramHoldsExactlyThePresentValues : Obligations.HistogramHoldsExactlyThePresentValues := by
  refine fun s hl hc => ⟨_, hl.histogram_eq hc, fun k n => ?_, ?_⟩
  · change _ ↔ n ≠ 0 ∧ n = s.numHolding k
    have asked : s.numHolding k ≠ 0 → k < 66 - s.b.toNat := fun hne => by
      have hk : k ≤ 65 - s.b.toNat := Nat.le_of_not_lt (mt (hl.numHolding_eq_zero hc) hne)
      have := s.b_lt
      omega
    simp only [List.mem_filter, List.mem_map, List.mem_range, Prod.mk.injEq, bne_iff_ne, ne_eq]
    constructor
    · rintro ⟨⟨_, -, rfl, rfl⟩, hn⟩
      exact ⟨hn, rfl⟩
    · rintro ⟨hn, rfl⟩
      exact ⟨⟨k, asked hn, rfl, rfl⟩, hn⟩
  · calc _ = (((List.range (66 - s.b.toNat)).map s.numHolding).filter (· != 0)).sum := by
          simp only [List.filter_map, List.map_map]; rfl
      _ = ((List.range (66 - s.b.toNat)).map s.numHolding).sum := List.sum_filter_bne_zero _
      _ = s.m := hl.sum_numHolding hc

/-! ## The operations of exact real arithmetic -/

namespace HostFloat

@[simp] theorem exact_ofNat (n : Nat) : exact.ofNat n = n := rfl
@[simp] theorem exact_decimal (d p : Nat) : exact.decimal d p = d / 10 ^ p := rfl
@[simp] theorem exact_add (x y : ℝ) : exact.add x y = x + y := rfl
@[simp] theorem exact_mul (x y : ℝ) : exact.mul x y = x * y := rfl
@[simp] theorem exact_div (x y : ℝ) : exact.div x y = x / y := rfl
@[simp] theorem exact_neg (x : ℝ) : exact.neg x = -x := rfl
@[simp] theorem exact_sum (xs : List ℝ) : exact.sum xs = xs.sum := rfl
@[simp] theorem exact_le (x y : ℝ) : exact.le x y = decide (x ≤ y) := rfl
@[simp] theorem exact_lt (x y : ℝ) : exact.lt x y = decide (x < y) := rfl

end HostFloat

@[simp] theorem powNeg_exact (r : Nat) : powNeg HostFloat.exact r = 1 / 2 ^ r := by simp [powNeg]

/-! ## alpha (48_host_side.md R120) -/

/-- Settles O46: the three rows of the table, and the closed form for the sizes that have no row. -/
theorem alphaTable : Obligations.AlphaTable := by
  refine ⟨?_, ?_, ?_, fun m h16 h32 h64 => ?_⟩
  · norm_num [alpha]
  · norm_num [alpha]
  · norm_num [alpha]
  · norm_num [alpha, h16, h32, h64]

theorem alpha_exact_le_one (m : Nat) : alpha HostFloat.exact m ≤ 1 := by
  obtain ⟨a16, a32, a64, closed⟩ := alphaTable
  by_cases h16 : m = 16
  · rw [h16, a16]; norm_num
  by_cases h32 : m = 32
  · rw [h32, a32]; norm_num
  by_cases h64 : m = 64
  · rw [h64, a64]; norm_num
  have hden : (1 : ℝ) ≤ 1 + 1.079 / m := le_add_of_nonneg_right (by positivity)
  rw [closed m h16 h32 h64]
  exact div_le_one_of_le₀ (le_trans (by norm_num) hden) (zero_le_one.trans hden)

/-! ## The harmonic sum (48_host_side.md R121) -/

/-- Settles O48: no register is above 61, so each of the `M` terms is at least `2^-61`. -/
theorem harmonicSumIsPositive : Obligations.HarmonicSumIsPositive := by
  intro s hl hc
  have term : ∀ x ∈ (List.range s.m).map fun j => powNeg HostFloat.exact (s.regVal j), 1 / 2 ^ 61 ≤ x := by
    simp only [List.mem_map, forall_exists_index, and_imp]
    rintro _ j - rfl
    have hreg : s.regVal j ≤ 61 := by
      have := hl.regVal_le hc j
      have := (hl.precision hc).1
      omega
    rw [powNeg_exact]
    exact one_div_le_one_div_of_le (by positivity) (pow_le_pow_right₀ one_le_two hreg)
  simpa [div_eq_mul_inv] using List.card_nsmul_le_sum _ _ term

/-- With one value in all registers the terms are equal: the raw estimate is `alpha(m) * m * 2^r`. -/
theorem rawFromRegs_replicate {m : Nat} (hm : 0 < m) (r : Nat) :
    rawFromRegs HostFloat.exact m (List.replicate m r) = alpha HostFloat.exact m * (m * 2 ^ r) := by
  have hm : (m : ℝ) ≠ 0 := Nat.cast_ne_zero.mpr hm.ne'
  simp only [rawFromRegs, HostFloat.exact_div, HostFloat.exact_mul, HostFloat.exact_ofNat, HostFloat.exact_sum,
    List.map_replicate, List.sum_replicate, powNeg_exact, nsmul_eq_mul, Nat.cast_mul]
  field_simp

/-! ## The three regimes (48_host_side.md R122) -/

theorem correct_exact (m nz : Nat) (e : ℝ) :
    correct HostFloat.exact m nz e =
      if e ≤ 2.5 * m then if nz ≠ 0 then m * HostFloat.exact.ln (m / nz) else e
      else if 2 ^ 32 / 30 < e then -2 ^ 32 * HostFloat.exact.ln1p (-e / 2 ^ 32) else e := by
  have hfactor : (25 : ℝ) / 10 ^ 1 = 2.5 := by norm_num
  simp only [correct, HostFloat.exact_ofNat, HostFloat.exact_decimal, HostFloat.exact_mul, HostFloat.exact_div,
    HostFloat.exact_neg, HostFloat.exact_le, HostFloat.exact_lt, decide_eq_true_eq, Nat.cast_ofNat, Nat.cast_pow, hfactor]

section
variable {m nz : Nat} {e : ℝ}

theorem correct_small_of_no_zeros (he : e ≤ 2.5 * m) : correct HostFloat.exact m 0 e = e := by
  rw [correct_exact, if_pos he, if_neg (not_not.mpr rfl)]

/-- Linear counting. -/
theorem correct_small_of_zeros (he : e ≤ 2.5 * m) (hm : 0 < m) (hnz : 0 < nz) :
    correct HostFloat.exact m nz e = m * Real.log (m / nz) := by
  have hquot : (0 : ℝ) < m / nz := div_pos (Nat.cast_pos.mpr hm) (Nat.cast_pos.mpr hnz)
  rw [correct_exact, if_pos he, if_pos hnz.ne', HostFloat.exact_ln hquot]

theorem correct_large (hsmall : 2.5 * m < e) (hlarge : 2 ^ 32 / 30 < e) (hdomain : e < 2 ^ 32) :
    correct HostFloat.exact m nz e = -2 ^ 32 * Real.log (1 - e / 2 ^ 32) := by
  have harg : -1 < -e / 2 ^ 32 := by linarith
  rw [correct_exact, if_neg (not_le.mpr hsmall), if_pos hlarge, HostFloat.exact_ln1p harg, neg_div, ← sub_eq_add_neg]

end

/-- `M` as a real number is at most 65536. -/
theorem cast_two_pow_le {b : Nat} (hb : b ≤ 16) : ((2 ^ b : Nat) : ℝ) ≤ 65536 := by
  exact_mod_cast Nat.pow_le_pow_right (n := 2) (by decide) hb

theorem log_two_pow_div_le {b nz : Nat} (hb : b ≤ 16) (hnz : 0 < nz) : Real.log ((2 ^ b : Nat) / nz) ≤ 16 := by
  have hn : (1 : ℝ) ≤ nz := Nat.one_le_cast.mpr hnz
  have hm : (0 : ℝ) < (2 ^ b : Nat) := Nat.cast_pos.mpr (Nat.two_pow_pos b)
  have hb : (b : ℝ) ≤ 16 := by exact_mod_cast hb
  have hlog2 : Real.log 2 ≤ 1 := by linarith [Real.log_two_lt_d9]
  calc Real.log ((2 ^ b : Nat) / nz)
    _ ≤ Real.log (2 ^ b : Nat) := Real.log_le_log (by positivity) (div_le_self hm.le hn)
    _ = b * Real.log 2 := by rw [Nat.cast_pow, Nat.cast_ofNat, Real.log_pow]
    _ ≤ b * 1 := by gcongr
    _ ≤ 16 := by rwa [mul_one]

/-- Settles O49: without zeros the estimate is at most `2.5 * 65536`, and linear counting gives at most `65536 * 16`. -/
theorem estimateRegimesDoNotOverlap : Obligations.EstimateRegimesDoNotOverlap := by
  intro b nz e _ hb _ he
  have he : e ≤ 2.5 * (2 ^ b : Nat) := by exact_mod_cast he
  have hm := cast_two_pow_le hb
  rcases Nat.eq_zero_or_pos nz with rfl | hnz
  · rw [correct_small_of_no_zeros he]
    linarith
  · rw [correct_small_of_zeros he (Nat.two_pow_pos b) hnz]
    calc ((2 ^ b : Nat) : ℝ) * Real.log ((2 ^ b : Nat) / nz)
      _ ≤ (2 ^ b : Nat) * 16 := by gcongr; exact log_two_pow_div_le hb hnz
      _ ≤ 2 ^ 32 / 30 := by linarith

/-- Settles O52: the terms of the saturated sum are equal, and the large-range threshold lies above `2.5 * M`. -/
theorem largeRangeCorrectionWithinItsDomain : Obligations.LargeRangeCorrectionWithinItsDomain := by
  refine ⟨fun b _ hb => ?_, fun b nz e _ hb hlarge hdomain => correct_large ?_ hlarge hdomain⟩
  · rw [rawFromRegs_replicate (Nat.two_pow_pos b), Nat.cast_pow, Nat.cast_ofNat, ← pow_add,
      Nat.add_sub_cancel' (by omega)]
  · linarith [cast_two_pow_le hb]

/-! ## The fresh estimator (48_host_side.md R125) -/

@[simp] theorem State.initialized_regVal (s : State) (d : Word) (j : Nat) : (s.initialized d).regVal j = 0 := rfl

theorem State.initialized_regVals (s : State) (d : Word) (n : Nat) :
    (List.range n).map (s.initialized d).regVal = List.replicate n 0 :=
  List.map_const.trans (by rw [List.length_range])

theorem State.initialized_numHolding_zero (s : State) (d : Word) :
    (s.initialized d).numHolding 0 = (s.initialized d).m := by
  simp [State.numHolding]

/-- Settles O51: all registers are 0, so the raw estimate is `alpha(M) * M` and linear counting takes `ln (M / M)`. -/
theorem freshEstimateIsZero : Obligations.FreshEstimateIsZero := by
  intro b s t hc h4 h16 hinit
  rw [exec_init_of_legal hc ⟨h4, h16⟩] at hinit
  cases hinit
  set u := s.initialized b
  have hm : (0 : ℝ) < u.m := Nat.cast_pos.mpr u.m_pos
  have hsmall : alpha HostFloat.exact u.m * (u.m * 2 ^ 0) ≤ 2.5 * u.m :=
    calc alpha HostFloat.exact u.m * (u.m * 2 ^ 0)
      _ ≤ 1 * (u.m * 2 ^ 0) := by gcongr; exact alpha_exact_le_one u.m
      _ ≤ 2.5 * u.m := by linarith
  rw [(s.initialized_legal ⟨h4, h16⟩).estimate_eq rfl, s.initialized_regVals b u.m,
    rawFromRegs_replicate u.m_pos, s.initialized_numHolding_zero, correct_small_of_zeros hsmall u.m_pos u.m_pos,
    div_self hm.ne', Real.log_one, mul_zero]

end Sys2Proof.Machine
end

section
/-! SUPPORT. The error rules' obligations (60_exceptions.md): the STATUS codes, the order in which a command's errors are
reported, what an error leaves unchanged, and the commands that never report one. -/

namespace Sys2Proof.Machine

/-! ## STATUS codes (60_exceptions.md R140) -/

theorem Status.code_toNat_le (st : Status) : st.code.toNat ≤ 5 := by cases st <;> decide

/-- Settles O21: each code by its definition, and none is above 5. -/
theorem statusCodesAsTabulated : Obligations.StatusCodesAsTabulated := by
  refine ⟨rfl, rfl, rfl, rfl, rfl, rfl, fun r => ?_⟩
  have never {c : BitVec 3} (hc : 5 < c.toNat) : r.onPort.1 ≠ c := by
    rintro rfl
    exact Nat.not_le.mpr hc r.status.code_toNat_le
  exact ⟨never (by decide), never (by decide), rfl⟩

/-! ## The order of the checks (60_exceptions.md R141) -/

/-- The status the rule gives a command of the given `OP` and DATA: the first error in the order of R141, or OK. -/
def State.firstError (s : State) (op data : Nat) : Status :=
  if 0xB ≤ op then .errIllegal
  else if op = 0x1 ∧ s.cfg = true then .errAlreadyConfigured
  else if op ∈ [0x2, 0x3, 0x4, 0x5, 0x6, 0x9, 0xA] ∧ s.cfg = false then .errNotConfigured
  else if op = 0x1 ∧ ¬ (4 ≤ data ∧ data ≤ 16) then .errInvalidPrecision
  else if op = 0x3 ∧ 2 ^ s.b.toNat ≤ data then .errIndexRange
  else .ok

section
variable {s : State} {op data : Nat}

theorem State.firstError_of_unchecked (h : op ∈ [0x0, 0x7, 0x8]) : s.firstError op data = .ok := by
  simp only [List.mem_cons, List.not_mem_nil, or_false] at h
  rcases h with rfl | rfl | rfl <;> simp [State.firstError]

theorem State.firstError_of_unconfigured (hc : s.cfg = false) (h : op ∈ [0x2, 0x3, 0x4, 0x5, 0x6, 0x9, 0xA]) :
    s.firstError op data = .errNotConfigured := by
  have hop : ¬ 0xB ≤ op := by
    simp only [List.mem_cons, List.not_mem_nil, or_false] at h
    omega
  simp [State.firstError, hop, hc, h]

/-- With CFG = 1 only INIT and the operand check of READREG are left to fail (60_exceptions.md R143). -/
theorem State.firstError_of_configured (hc : s.cfg = true) (h : op ∈ [0x2, 0x4, 0x5, 0x6, 0x9, 0xA]) :
    s.firstError op data = .ok := by
  simp only [List.mem_cons, List.not_mem_nil, or_false] at h
  have hop : ¬ 0xB ≤ op ∧ op ≠ 0x1 ∧ op ≠ 0x3 := by omega
  simp [State.firstError, hop, hc]

theorem State.firstError_init_of_configured (hc : s.cfg = true) : s.firstError 0x1 data = .errAlreadyConfigured := by
  simp [State.firstError, hc]

theorem State.firstError_init_of_illegal (hc : s.cfg = false) (hd : ¬ (4 ≤ data ∧ data ≤ 16)) :
    s.firstError 0x1 data = .errInvalidPrecision := by
  simp [State.firstError, hc, hd]

theorem State.firstError_init_of_legal (hc : s.cfg = false) (hd : 4 ≤ data ∧ data ≤ 16) :
    s.firstError 0x1 data = .ok := by
  simp [State.firstError, hc, hd]

theorem State.firstError_readreg_of_le (hc : s.cfg = true) (hj : s.m ≤ data) :
    s.firstError 0x3 data = .errIndexRange := by
  rw [State.m] at hj
  simp [State.firstError, hc, hj]

theorem State.firstError_readreg_of_lt (hc : s.cfg = true) (hj : data < s.m) : s.firstError 0x3 data = .ok := by
  rw [State.m] at hj
  simp [State.firstError, hc, Nat.not_le.mpr hj]

end

/-- A command completes, with one response of the given status. -/
def AnswersWith (i : Instr) (s : State) (st : Status) : Prop :=
  ∃ t r, exec i s = .next t ∧ t.responses = s.responses ++ [{ status := st, result := r }]

theorem AnswersWith.of_respond {i : Instr} {s : State} {st : Status} {r : Word}
    (h : exec i s = .next (s.respond st r)) : AnswersWith i s st := ⟨_, r, h, rfl⟩

/-- Every command completes and reports the first of its errors in the order of R141. -/
theorem exec_answersWith_firstError (i : Instr) {s : State} (hb : s.cfg = true → s.b.toNat ≤ 16) :
    AnswersWith i s (s.firstError (opcodeOf i).toNat (operandOf i).toNat) := by
  have unchecked (hop : (opcodeOf i).toNat ∈ [0x0, 0x7, 0x8]) (h : AnswersWith i s .ok) :=
    (State.firstError_of_unchecked (s := s) (data := (operandOf i).toNat) hop).symm ▸ h
  have unconfigured {go : Answer} (hc : s.cfg = false)
      (hop : (opcodeOf i).toNat ∈ [0x2, 0x3, 0x4, 0x5, 0x6, 0x9, 0xA]) (hi : exec i s = requireConfigured s go) :
      AnswersWith i s (s.firstError (opcodeOf i).toNat (operandOf i).toNat) :=
    State.firstError_of_unconfigured hc hop ▸ .of_respond (hi.trans (requireConfigured_of_unconfigured hc _))
  have query {go : Answer} (hop : (opcodeOf i).toNat ∈ [0x2, 0x4, 0x5, 0x6, 0x9, 0xA])
      (hi : exec i s = requireConfigured s go) (hok : s.cfg = true → AnswersWith i s .ok) :
      AnswersWith i s (s.firstError (opcodeOf i).toNat (operandOf i).toNat) := by
    cases hc : s.cfg with
    | true => exact State.firstError_of_configured hc hop ▸ hok hc
    | false => exact unconfigured hc (List.Sublist.subset (by decide) hop) hi
  cases i with
  | nop d => exact unchecked (by simp [opcodeOf]) (.of_respond rfl)
  | clz64 x => exact unchecked (by simp [opcodeOf]) (.of_respond rfl)
  | popcnt64 x => exact unchecked (by simp [opcodeOf]) (.of_respond rfl)
  | init d =>
    cases hc : s.cfg with
    | true => exact State.firstError_init_of_configured hc ▸ .of_respond (exec_init_of_configured hc d)
    | false =>
      by_cases hd : 4 ≤ d.toNat ∧ d.toNat ≤ 16
      · exact State.firstError_init_of_legal hc hd ▸ ⟨_, _, exec_init_of_legal hc hd, rfl⟩
      · exact State.firstError_init_of_illegal hc hd ▸ .of_respond (exec_init_of_illegal hc hd)
  | readreg j =>
    cases hc : s.cfg with
    | true =>
      rcases Nat.lt_or_ge j.toNat s.m with hj | hj
      · exact State.firstError_readreg_of_lt hc hj ▸ .of_respond (exec_readreg_of_lt hc (hb hc) hj)
      · exact State.firstError_readreg_of_le hc hj ▸ .of_respond (exec_readreg_of_le hc hj)
    | false => exact unconfigured hc (by simp [opcodeOf]) rfl
  | update v => exact query (by simp [opcodeOf]) rfl fun hc => ⟨_, _, exec_update_of_precision hc (hb hc) v, rfl⟩
  | numzeros d => exact query (by simp [opcodeOf]) rfl fun hc => .of_respond (exec_numzeros_of_configured hc (hb hc) d)
  | histbin k => exact query (by simp [opcodeOf]) rfl fun hc => .of_respond (exec_histbin_of_configured hc (hb hc) k)
  | getb d => exact query (by simp [opcodeOf]) rfl fun hc => .of_respond (exec_getb_of_configured hc d)
  | idx v => exact query (by simp [opcodeOf]) rfl fun hc => .of_respond (requireConfigured_of_configured hc _)
  | rank v => exact query (by simp [opcodeOf]) rfl fun hc => .of_respond (requireConfigured_of_configured hc _)

/-- Settles O22: the decoder rejects a reserved word, and every other word is one command with its fields. -/
theorem firstErrorInOrderIsReported : Obligations.FirstErrorInOrderIsReported := by
  intro s w rest hport hb
  change ∃ t r, step s = .next t ∧ t.responses = s.responses ++ [r] ∧
    r.status = s.firstError (w.toNat / 2 ^ 64) (w.toNat % 2 ^ 64)
  rcases decodingIsTotalByOpcode w with ⟨i, hd, hop, hdata, -⟩ | ⟨hd, hop⟩
  · obtain ⟨t, r, ht, hr⟩ := exec_answersWith_firstError i (s := { s with port := rest }) hb
    exact ⟨t, _, (step_command hport hd).trans ht, hr, by rw [← hop, ← hdata]; rfl⟩
  · exact ⟨_, _, step_reserved hport hd, rfl, (if_pos hop).symm⟩

/-! ## What an error leaves unchanged (60_exceptions.md R142) -/

/-- Settles O23: by what a command can do, and by the answer to a reserved opcode. -/
theorem errorsChangeNothing : Obligations.ErrorsChangeNothing := by
  intro s t w rest hport h
  rcases hd : decode w with e | i
  · rw [step_reserved hport hd] at h
    cases h
    exact ⟨_, rfl, rfl, fun _ => ⟨rfl, rfl, rfl, rfl⟩⟩
  · rw [step_command hport hd] at h
    cases exec_cases h with
    | answer _ st r err => exact ⟨_, rfl, rfl, fun hst => ⟨err hst, rfl, rfl, rfl⟩⟩
    | construct => exact ⟨_, rfl, rfl, fun hst => absurd rfl hst⟩
    | write => exact ⟨_, rfl, rfl, fun hst => absurd rfl hst⟩

/-! ## The commands that never report an error (60_exceptions.md R143) -/

/-- Settles O24: in a legal state every command reports its first error, and these have none. -/
theorem configuredCommandsNeverFail : Obligations.ConfiguredCommandsNeverFail := by
  intro s d hl
  have reported (i : Instr) := exec_answersWith_firstError i fun hc => (hl.precision hc).2
  refine ⟨fun i hi => ?_, fun hc i hi => ?_⟩
  · have hop : (opcodeOf i).toNat ∈ [0x0, 0x7, 0x8] := by
      simp only [List.mem_cons, List.not_mem_nil, or_false] at hi
      rcases hi with rfl | rfl | rfl <;> simp [opcodeOf]
    exact State.firstError_of_unchecked hop ▸ reported i
  · have hop : (opcodeOf i).toNat ∈ [0x2, 0x4, 0x5, 0x6, 0x9, 0xA] := by
      simp only [List.mem_cons, List.not_mem_nil, or_false] at hi
      rcases hi with rfl | rfl | rfl | rfl | rfl | rfl <;> simp [opcodeOf]
    exact State.firstError_of_configured hc hop ▸ reported i

/-! ## No error is fatal, and nothing happens by itself (60_exceptions.md R142, R146) -/

/-- Settles O25: every move of the host is taken, since a legal configured block has `B ≤ 16`. -/
theorem legalStatesNeverStop : Obligations.LegalStatesNeverStop := fun _ hl => step_completes hl

/-- Settles O20: with the port empty the step is idle. -/
theorem nothingHappensWithoutACommand : Obligations.NothingHappensWithoutACommand := fun _ hport => step_idle hport

end Sys2Proof.Machine
end

section
/-! SUPPORT. The obligations on reset and hazards (70_reset_and_hazards.md): a step runs exactly the next word, reset
unconfigures, the block stays unconfigured until a legal INIT, and a READREG straight after an UPDATE sees the write. -/

namespace Sys2Proof.Machine

/-! ## One move, one command (70_reset_and_hazards.md R163) -/

/-- Settles O16: the step's case of a word that decodes. -/
theorem stepRunsTheDecodedCommand : Obligations.StepRunsTheDecodedCommand := fun _ _ _ _ => step_command

/-- No bit of a 68-bit table word is padding. -/
theorem tableWord_toNat (w : CommandWord) : tableWord 68 w.toNat = w := by
  rw [tableWord, Nat.mod_eq_of_lt w.isLt, BitVec.ofNat_toNat, BitVec.setWidth_eq]

/-- Settles O17: the placed word is the next move, and taking it leaves the state it was placed on. -/
theorem placedWordRunsNext : Obligations.PlacedWordRunsNext := by
  intro s w i hd
  rw [State.withFetchWord, tableWord_toNat]
  exact step_command (s.sendNext_port w) hd

/-! ## Reset (70_reset_and_hazards.md R160) -/

/-- Settles O19: a reset takes its own move off the port and appends no response. -/
theorem resetUnconfiguresWithoutResponse : Obligations.ResetUnconfiguresWithoutResponse :=
  ⟨rfl, fun s rest hport => ⟨takeReset { s with port := rest }, step_reset hport, rfl, rfl, rfl⟩⟩

/-! ## Unconfigured until a legal INIT (70_reset_and_hazards.md R162) -/

/-- None of the moves is an INIT with a legal precision. -/
def NoLegalInit (moves : List HostEvent) : Prop :=
  ∀ w d, HostEvent.command w ∈ moves → decode w = .ok (.init d) → ¬ (4 ≤ d.toNat ∧ d.toNat ≤ 16)

theorem NoLegalInit.after_step {n : Nat} {s t : State} (h : step s = .next t)
    (hno : NoLegalInit (s.port.take (n + 1))) : NoLegalInit (t.port.take n) := by
  have hmoves : t.port.take n = (s.port.take (n + 1)).drop 1 := by
    rw [step_port h, List.drop_take, List.drop_one, Nat.add_sub_cancel]
  exact fun w d hw => hno w d (List.mem_of_mem_drop (hmoves ▸ hw))

/-- A step configures the block only by a legal INIT as the next move. -/
theorem step_stays_unconfigured {n : Nat} {s t : State} (h : step s = .next t) (hc : s.cfg = false)
    (hno : NoLegalInit (s.port.take (n + 1))) : t.cfg = false := by
  refine Bool.eq_false_iff.mpr fun hct => ?_
  obtain ⟨w, rest, d, hport, hd, hlegal⟩ := (step_configures_iff h hc).mp hct
  exact hno w d (by simp [hport]) hd hlegal

/-- Settles O32, by induction on the number of steps: none of them takes a legal INIT off the port. -/
theorem unconfiguredUntilSuccessfulInit : Obligations.UnconfiguredUntilSuccessfulInit := by
  intro n s t hc hno hrun
  induction n generalizing s with
  | zero => cases hrun; exact hc
  | succ n ih =>
    obtain ⟨u, hstep, hrun⟩ := run_succ_next hrun
    exact ih u (step_stays_unconfigured hstep hc hno) (NoLegalInit.after_step hstep hno) hrun

/-! ## Read after write (70_reset_and_hazards.md R166) -/

/-- READREG of the index a value selects returns the register selected. -/
theorem State.Legal.exec_readreg_index {s : State} (hl : s.Legal) (hc : s.cfg = true) (v : Word) :
    exec (.readreg (zext64 (s.index v))) s = .next (s.respond .ok (zext64 (s.regVal (s.index v)))) := by
  have hj : (zext64 (s.index v)).toNat < s.m := (zext64_index_toNat s v).symm ▸ s.index_lt v
  rw [exec_readreg_of_lt hc (hl.precision hc).2 hj, zext64_index_toNat, ← zext64_reg, State.regVal]

/-- Settles O41: UPDATE leaves a legal state with the same index mux, whose selected register holds the maximum. -/
theorem readAfterUpdateSeesTheWrite : Obligations.ReadAfterUpdateSeesTheWrite := by
  intro v s hl hc
  have hmax : (s.updated v).regVal (s.index v) = max (s.regVal (s.index v)) (s.rank v) :=
    (hl.updated_regVal hc v _).trans (if_pos rfl)
  refine ⟨s.updated v, hl.exec_update hc v, ?_⟩
  rw [← hmax]
  exact (hl.updated hc v).exec_readreg_index hc v

end Sys2Proof.Machine
end
